-- ==== Sys2Proof/Word.lean ====
section
/-! DEFINITION. The word types of the datapath and the interface: a 32-bit word, a byte, the 64-bit byte count. -/

namespace Sys2Proof

/-- A 32-bit word: the datapath word `WORD` and the host data width `REG_WIDTH` [00_scope.md R5]. -/
abbrev Word := BitVec 32

/-- One byte of the block buffer or of a message. -/
abbrev Byte := BitVec 8

end Sys2Proof
end

