-- ==== Sys2Proof/Syntax.lean ====
section
/-! DEFINITION. The instructions: one constructor per row of spec/opcode_table.json, the five outcomes of a command word (format CMD) and the thirteen rows of a host access (format BUS). -/

namespace Sys2Proof

/-- One row of the opcode table each. In a host access `b` is the pair of ignored low offset bits `addr[1:0]`
[20_memory.md R52], `x` the bits of the register index that the row leaves open, and `wdata` the word a write carries
[30_encoding.md R70, R81]. -/
inductive Instr where
  /-- CMD word 0x00000000 [41_commands.md R92]. -/
  | nop
  /-- CMD word 0x00000001 [41_commands.md R93]. -/
  | init
  /-- CMD word `0x00000002 | n << 4`, `n` in 0..4 [41_commands.md R94]. -/
  | update (n : Fin 5)
  /-- CMD word 0x00000003 [41_commands.md R95]. -/
  | final
  /-- Every other CMD word, which `word` keeps [30_encoding.md R75, 60_exceptions.md R180]. -/
  | illegal (word : Word)
  /-- Write of CMD: one command [44_register_access.md R169]. -/
  | wrCmd (b : BitVec 2) (wdata : Word)
  /-- Write of DATA [44_register_access.md R162]. -/
  | wrData (b : BitVec 2) (wdata : Word)
  /-- Ignored write, register index 2 or 3: STATUS, reserved 0x0C [44_register_access.md R167]. -/
  | wrIgnoredStatus (x : BitVec 1) (b : BitVec 2) (wdata : Word)
  /-- Ignored write, register index 4..7: LEN_LO, LEN_HI, reserved 0x18 and 0x1C [44_register_access.md R167]. -/
  | wrIgnoredLen (x : BitVec 2) (b : BitVec 2) (wdata : Word)
  /-- Ignored write, register index 8..15: DIGEST0..7 [44_register_access.md R167]. -/
  | wrIgnoredDigest (x : BitVec 3) (b : BitVec 2) (wdata : Word)
  /-- Read of CMD [44_register_access.md R168]. -/
  | rdCmd (b : BitVec 2)
  /-- Read of DATA [44_register_access.md R162]. -/
  | rdData (b : BitVec 2)
  /-- Read of STATUS [44_register_access.md R163]. -/
  | rdStatus (b : BitVec 2)
  /-- Read of the reserved offset 0x0C [44_register_access.md R168]. -/
  | rdReserved (b : BitVec 2)
  /-- Read of LEN_LO [44_register_access.md R164]. -/
  | rdLenLo (b : BitVec 2)
  /-- Read of LEN_HI [44_register_access.md R164]. -/
  | rdLenHi (b : BitVec 2)
  /-- Read of the reserved offsets 0x18 and 0x1C [44_register_access.md R168]. -/
  | rdReservedHigh (x : BitVec 1) (b : BitVec 2)
  /-- Read of `DIGESTi` [44_register_access.md R165]. -/
  | rdDigest (i : BitVec 3) (b : BitVec 2)
deriving DecidableEq, Repr

end Sys2Proof
end

