-- ==== Sys2Proof/WellFormed.lean ====
section
/-! DEFINITION. Which terms of Instr stand for an instruction the spec has: all, but for `illegal` of a word that is legal. -/

namespace Sys2Proof

/-- The legal command words are exactly these eight [30_encoding.md R75]. -/
def legalCommandWords : List Word :=
  [0x00000000, 0x00000001, 0x00000003, 0x00000002, 0x00000012, 0x00000022, 0x00000032, 0x00000042]

/-- A term of `Instr` that some word or access of the spec encodes: `illegal` holds only a word outside the eight legal
ones [30_encoding.md R75, R76]. Every other operand's type admits only values the encoding has. -/
def Instr.wellFormed : Instr → Bool
  | .nop => true
  | .init => true
  | .update _ => true
  | .final => true
  | .illegal word => !legalCommandWords.contains word
  | .wrCmd _ _ => true
  | .wrData _ _ => true
  | .wrIgnoredStatus _ _ _ => true
  | .wrIgnoredLen _ _ _ => true
  | .wrIgnoredDigest _ _ _ => true
  | .rdCmd _ => true
  | .rdData _ => true
  | .rdStatus _ => true
  | .rdReserved _ => true
  | .rdLenLo _ => true
  | .rdLenHi _ => true
  | .rdReservedHigh _ _ => true
  | .rdDigest _ _ => true

end Sys2Proof
end

