-- ==== Sys2Proof/Decode.lean ====
section
/-! DEFINITION. Decoding and encoding: command words (format CMD), access descriptors (format BUS), host accesses, and the numbered words of spec/opcode_table.json. -/

namespace Sys2Proof

/-- The outcome of decoding a command word [30_encoding.md R75]. -/
inductive Command where
  | nop
  | init
  | update (n : Fin 5)
  | final
  | illegal (word : Word)
deriving DecidableEq, Repr

/-- A host access as the ports carry it while `req = 1` [20_memory.md R51]: a read (`we = 0`) or a write (`we = 1`) at a
byte offset. -/
inductive HostAccess where
  | read (addr : BitVec 6)
  | write (addr : BitVec 6) (wdata : Word)
deriving DecidableEq, Repr

/-- Why a numbered word is no instruction of the table. -/
inductive DecodeError where
  /-- The length is none of the table's: 8 (a descriptor), 32 (a command word), 40 (a descriptor and its `wdata`). -/
  | length (nbits : Nat)
  /-- The number does not fit in the length. -/
  | tooWide (nbits w : Nat)
  /-- Bit 7 is set: a descriptor has 7 bits [30_encoding.md R70]. -/
  | descriptorBit7 (w : Nat)
  /-- A 40-bit number whose descriptor is a read: a read carries no `wdata` [30_encoding.md R70]. -/
  | readWithData (w : Nat)
deriving DecidableEq, Repr

/-! ### Command words -/

/-- `OP` = CMD[3:0] [30_encoding.md R71]. -/
def cmdOp (w : Word) : BitVec 4 := w.extractLsb' 0 4

/-- `NBYTES` = CMD[6:4] [30_encoding.md R71]. -/
def cmdNBytes (w : Word) : BitVec 3 := w.extractLsb' 4 3

/-- `RSV` = CMD[31:7] [30_encoding.md R71]. -/
def cmdRsv (w : Word) : BitVec 25 := w.extractLsb' 7 25

/-- `decode(w)` [30_encoding.md R75]. -/
def decodeCmd (w : Word) : Command :=
  if cmdRsv w ≠ 0 then .illegal w
  else if cmdOp w = 0x0 ∧ cmdNBytes w = 0 then .nop
  else if cmdOp w = 0x1 ∧ cmdNBytes w = 0 then .init
  else if h : cmdOp w = 0x2 ∧ (cmdNBytes w).toNat < 5 then .update ⟨(cmdNBytes w).toNat, h.2⟩
  else if cmdOp w = 0x3 ∧ cmdNBytes w = 0 then .final
  else .illegal w

/-- The instruction a command stands for. -/
def Command.toInstr : Command → Instr
  | .nop => .nop
  | .init => .init
  | .update n => .update n
  | .final => .final
  | .illegal w => .illegal w

/-! ### Access descriptors -/

/-- The `A` field of a descriptor, `acc[5:2]` [30_encoding.md R70]. -/
def accReg (acc : BitVec 7) : BitVec 4 := acc.extractLsb' 2 4

/-- The `b` field of a descriptor, `acc[1:0]`, ignored by every access [30_encoding.md R70]. -/
def accLow (acc : BitVec 7) : BitVec 2 := acc.extractLsb' 0 2

/-- The `W` field of a descriptor, `acc[6]` [30_encoding.md R70]. -/
def accWrites (acc : BitVec 7) : Bool := acc.getLsbD 6

/-- The outcome of an access descriptor with the word a write carries [30_encoding.md R81; the BUS rows of
opcode_table.json]. Every descriptor has one [30_encoding.md R76]. -/
def decodeDescriptor (acc : BitVec 7) (wdata : Word) : Instr :=
  let a := (accReg acc).toNat
  let b := accLow acc
  if accWrites acc then
    if a = 0 then .wrCmd b wdata
    else if a = 1 then .wrData b wdata
    else if a < 4 then .wrIgnoredStatus (acc.extractLsb' 2 1) b wdata
    else if a < 8 then .wrIgnoredLen (acc.extractLsb' 2 2) b wdata
    else .wrIgnoredDigest (acc.extractLsb' 2 3) b wdata
  else
    if a = 0 then .rdCmd b
    else if a = 1 then .rdData b
    else if a = 2 then .rdStatus b
    else if a = 3 then .rdReserved b
    else if a = 4 then .rdLenLo b
    else if a = 5 then .rdLenHi b
    else if a < 8 then .rdReservedHigh (acc.extractLsb' 2 1) b
    else .rdDigest (acc.extractLsb' 2 3) b

/-- The descriptor of an access, `acc = we << 6 | addr` [30_encoding.md R70]. -/
def HostAccess.descriptor : HostAccess → BitVec 7
  | .read addr => 0#1 ++ addr
  | .write addr _ => 1#1 ++ addr

/-- The word an access carries, zero for a read, which carries none. -/
def HostAccess.wdata : HostAccess → Word
  | .read _ => 0
  | .write _ w => w

/-- The instruction an access presented on the ports is [30_encoding.md R81]. -/
def decodeAccess (a : HostAccess) : Instr := decodeDescriptor a.descriptor a.wdata

/-- The access with a given descriptor and write word [30_encoding.md R70]. -/
def accessOf (acc : BitVec 7) (wdata : Word) : HostAccess :=
  if accWrites acc then .write (acc.extractLsb' 0 6) wdata else .read (acc.extractLsb' 0 6)

/-! ### The numbered words of the opcode table

A row of format CMD has 32 bits and is the `wdata` of a write to CMD. A row of format BUS has 7 bits, in whole bytes 8;
a write's `wdata` stands above them, in bits 39..8, and is 0 where the number has only 8 bits (log 14). -/

/-- Decode a numbered word, rejecting by name (log 14). -/
def decodeWord (nbits w : Nat) : Except DecodeError Instr :=
  if 2 ^ nbits ≤ w then .error (.tooWide nbits w)
  else if nbits = 32 then .ok (decodeCmd (BitVec.ofNat 32 w)).toInstr
  else if nbits = 8 ∨ nbits = 40 then
    if w.testBit 7 then .error (.descriptorBit7 w)
    else if nbits = 40 ∧ accWrites (BitVec.ofNat 7 w) = false then .error (.readWithData w)
    else .ok (decodeDescriptor (BitVec.ofNat 7 w) (BitVec.ofNat 32 (w >>> 8)))
  else .error (.length nbits)

/-- The instruction the decoder reads from a numbered word, none where it refuses. -/
def decodeTableWord (nbits w : Nat) : Option Instr := (decodeWord nbits w).toOption

/-- The host access that a numbered word stands for on the ports: a command word is the `wdata` of a write to CMD
(offset 0x00) [30_encoding.md R71], a descriptor is the access it describes. -/
def accessOfTableWord (nbits w : Nat) : HostAccess :=
  if nbits = 32 then .write 0 (BitVec.ofNat 32 w)
  else accessOf (BitVec.ofNat 7 w) (BitVec.ofNat 32 (w >>> 8))

/-! ### Encoding -/

/-- The word of a command [30_encoding.md R71, R72, R75]. -/
def encodeCmd : Command → Word
  | .nop => 0x00000000
  | .init => 0x00000001
  | .update n => 0x00000002#32 ||| (BitVec.ofNat 32 n.val <<< 4)
  | .final => 0x00000003
  | .illegal w => w

/-- A descriptor from its fields W, A and b [30_encoding.md R70]. -/
def descriptorOf (w : BitVec 1) (a : BitVec 4) (b : BitVec 2) : BitVec 7 := w ++ a ++ b

/-- A numbered word: its length in bits and its bits. -/
structure TableWord where
  nbits : Nat
  bits : Nat
deriving DecidableEq, Repr

/-- The numbered word of a command. -/
def commandTableWord (c : Command) : TableWord := ⟨32, (encodeCmd c).toNat⟩

/-- The numbered word of a read: its descriptor. -/
def readTableWord (a : BitVec 4) (b : BitVec 2) : TableWord := ⟨8, (descriptorOf 0 a b).toNat⟩

/-- The numbered word of a write: its descriptor, then `wdata` from bit 8. -/
def writeTableWord (a : BitVec 4) (b : BitVec 2) (wdata : Word) : TableWord :=
  ⟨40, (wdata ++ 0#1 ++ descriptorOf 1 a b).toNat⟩

/-- The words of an instruction, from the encoding tables [30_encoding.md R72, R75, R81]. -/
def encode : Instr → TableWord
  | .nop => commandTableWord .nop
  | .init => commandTableWord .init
  | .update n => commandTableWord (.update n)
  | .final => commandTableWord .final
  | .illegal w => commandTableWord (.illegal w)
  | .wrCmd b wdata => writeTableWord 0 b wdata
  | .wrData b wdata => writeTableWord 1 b wdata
  | .wrIgnoredStatus x b wdata => writeTableWord (0b001#3 ++ x) b wdata
  | .wrIgnoredLen x b wdata => writeTableWord (0b01#2 ++ x) b wdata
  | .wrIgnoredDigest x b wdata => writeTableWord (0b1#1 ++ x) b wdata
  | .rdCmd b => readTableWord 0 b
  | .rdData b => readTableWord 1 b
  | .rdStatus b => readTableWord 2 b
  | .rdReserved b => readTableWord 3 b
  | .rdLenLo b => readTableWord 4 b
  | .rdLenHi b => readTableWord 5 b
  | .rdReservedHigh x b => readTableWord (0b011#3 ++ x) b
  | .rdDigest i b => readTableWord (0b1#1 ++ i) b

end Sys2Proof
end

