-- ==== Sys2Proof/Machine/Constants.lean ====
section
/-! DEFINITION. Constants of the hardware, no part of State [10_state.md R37]: the initial hash value, the round-constant ROM, the fixed parameters; and the type of a group of eight words. -/

namespace Sys2Proof.Machine

/-- Eight 32-bit registers: `H[0..7]`, or `v[0..7]` named a..h [10_state.md R20, R21]. -/
structure Words8 where
  w0 : Word
  w1 : Word
  w2 : Word
  w3 : Word
  w4 : Word
  w5 : Word
  w6 : Word
  w7 : Word
deriving DecidableEq, Repr

/-- Sixteen 32-bit registers: the schedule window `win[0..15]` [10_state.md R22]. -/
structure Words16 where
  w0 : Word
  w1 : Word
  w2 : Word
  w3 : Word
  w4 : Word
  w5 : Word
  w6 : Word
  w7 : Word
  w8 : Word
  w9 : Word
  w10 : Word
  w11 : Word
  w12 : Word
  w13 : Word
  w14 : Word
  w15 : Word
deriving DecidableEq, Repr

/-- The initial hash value `IV` [10_state.md R20]. -/
def iv : Words8 :=
  ⟨0x6a09e667, 0xbb67ae85, 0x3c6ef372, 0xa54ff53a, 0x510e527f, 0x9b05688c, 0x1f83d9ab, 0x5be0cd19⟩

/-- `MAX_BYTES` = 2^61 - 1, the largest message accepted [00_scope.md R5, 60_exceptions.md R182]. -/
def maxBytes : Nat := 2 ^ 61 - 1

/-- `BLOCK_BYTES` [00_scope.md R5]. -/
def blockBytes : Nat := 64

/-- `PAD_LIMIT` [00_scope.md R5]: one padding block holds the data, the byte 0x80 and the length field exactly when data and
0x80 fill at most this many bytes. -/
def padLimit : Nat := 56

/-- Rows 0 to 24 of the round-constant ROM [42_block_compressor.md R117]. -/
def romLow : List Word :=
  [0x428a2f98, 0x71374491, 0xb5c0fbcf, 0xe9b5dba5, 0x3956c25b, 0x59f111f1, 0x923f82a4, 0xab1c5ed5] ++
  [0xd807aa98, 0x12835b01, 0x243185be, 0x550c7dc3, 0x72be5d74, 0x80deb1fe, 0x9bdc06a7, 0xc19bf174] ++
  [0xe49b69c1, 0xefbe4786, 0x0fc19dc6, 0x240ca1cc, 0x2de92c6f, 0x4a7484aa, 0x5cb0a9dc, 0x76f988da] ++
  [0x983e5152, 0xa831c66d, 0xb00327c8, 0xbf597fc7, 0xc6e00bf3, 0xd5a79147, 0x06ca6351, 0x14292967]

/-- Rows 32 to 56 of the round-constant ROM [42_block_compressor.md R117]. -/
def romHigh : List Word :=
  [0x27b70a85, 0x2e1b2138, 0x4d2c6dfc, 0x53380d13, 0x650a7354, 0x766a0abb, 0x81c2c92e, 0x92722c85] ++
  [0xa2bfe8a1, 0xa81a664b, 0xc24b8b70, 0xc76c51a3, 0xd192e819, 0xd6990624, 0xf40e3585, 0x106aa070] ++
  [0x19a4c116, 0x1e376c08, 0x2748774c, 0x34b0bcb5, 0x391c0cb3, 0x4ed8aa4a, 0x5b9cca4f, 0x682e6ff3] ++
  [0x748f82ee, 0x78a5636f, 0x84c87814, 0x8cc70208, 0x90befffa, 0xa4506ceb, 0xbef9a3f7, 0xc67178f2]

/-- The ROM's 64 words in order [42_block_compressor.md R117]. -/
def romWords : List Word := romLow ++ romHigh

/-- `K[t]`, the ROM word at a 6-bit address [42_block_compressor.md R117, 20_memory.md R50]. The list has 64 words
(Laws/Compressor.lean, `romWords_length`), so the default is never the answer. -/
def rom (t : BitVec 6) : Word := romWords.getD t.toNat 0

end Sys2Proof.Machine
end

