-- ==== Sys2Proof/Machine/Memory.lean ====
section
/-! DEFINITION. The block buffer as memory: a list of (address, byte) cells in canonical form, its read and write of one byte and of a run of bytes. -/

namespace Sys2Proof.Machine

/-- The contents of the block buffer, byte addresses 0 to 63 [10_state.md R26, 20_memory.md R50]. A byte no cell lists has
no value (log 3). -/
abbrev Memory := List Host.Cell

/-- The canonical form: addresses strictly rising, all below 64. No cell can equal what an unlisted address reads as, since
that reads as no value (log 3). -/
abbrev Memory.wf (m : Memory) : Prop :=
  m.Pairwise (fun c d => c.1 < d.1) ∧ ∀ c ∈ m, c.1 < 64

/-- The byte at an address, none where nothing has been written. -/
def Memory.readByte : Memory → Nat → Option Byte
  | [], _ => none
  | c :: m, a => if c.1 = a then some c.2 else Memory.readByte m a

/-- Write one byte, keeping the addresses rising. -/
def Memory.writeByte : Memory → Nat → Byte → Memory
  | [], a, b => [(a, b)]
  | c :: m, a, b =>
    if a < c.1 then (a, b) :: c :: m
    else if a = c.1 then (a, b) :: m
    else c :: Memory.writeByte m a b

/-- The `n` bytes from an address, none where one of them has no value. -/
def Memory.readRun (m : Memory) (a : Nat) : Nat → Option (List Byte)
  | 0 => some []
  | n + 1 =>
    match m.readByte a, Memory.readRun m (a + 1) n with
    | some b, some bs => some (b :: bs)
    | _, _ => none

/-- Write bytes from an address upwards. -/
def Memory.writeRun (m : Memory) (a : Nat) : List Byte → Memory
  | [] => m
  | b :: bs => Memory.writeRun (m.writeByte a b) (a + 1) bs

/-- Every address below `n` has a value. -/
abbrev Memory.filledBelow (m : Memory) (n : Nat) : Prop := ∀ k < n, (m.readByte k).isSome = true

end Sys2Proof.Machine
end

