-- ==== Sys2Proof/Machine/State.lean ====
section
/-! DEFINITION. The machine's state, its reset value, and the reasons a step stops. -/

namespace Sys2Proof.Machine

/-- The engine state `eng`; `BUSY = (eng = COMPRESS)` [10_state.md R23]. -/
inductive Engine where
  | idle
  | compress
deriving DecidableEq, Repr

/-- The padding-sequencer state `pad` [10_state.md R25]. Its code 3 is never held and has no name here (log 8). -/
inductive PadState where
  /-- `P_NONE`, code 0: a data block from UPDATE. -/
  | pNone
  /-- `P_FINAL`, code 1: the last block of a FINAL. -/
  | pFinal
  /-- `P_FIRST`, code 2: the first of two FINAL blocks. -/
  | pFirst
deriving DecidableEq, Repr

/-- The lifecycle state `phase` [10_state.md R29]. -/
inductive Phase where
  | fresh
  | accumulating
  | finalized
  | finalizing
deriving DecidableEq, Repr

/-- What the input ports carry before one edge [20_memory.md R51]: `rst`, and the access presented (`req = 1` with `we`,
`addr` and `wdata`) or none (`req = 0`). -/
structure PortIn where
  rst : Bool
  req : Option HostAccess
deriving DecidableEq, Repr

/-- The state of the block and of its ports. -/
structure State where
  /-- `H[0..7]` [10_state.md R20]. -/
  h : Words8
  /-- `v[0..7]`, the working variables a..h [10_state.md R21]. -/
  v : Words8
  /-- `win[0..15]` [10_state.md R22]. -/
  win : Words16
  /-- `eng` [10_state.md R23]. -/
  eng : Engine
  /-- `rnd`, 0 to 64 [10_state.md R24]. -/
  rnd : BitVec 7
  /-- `pad` [10_state.md R25]. -/
  pad : PadState
  /-- `buf[0..63]` [10_state.md R26]. -/
  buf : List Host.Cell
  /-- `buf_len`, 0 to 63 [10_state.md R27]. -/
  bufLen : BitVec 7
  /-- `total_len` [10_state.md R28]. -/
  totalLen : BitVec 64
  /-- `phase` [10_state.md R29]. -/
  phase : Phase
  /-- `DATA` [10_state.md R30]. -/
  data : Word
  /-- `err_illegal` [10_state.md R31]. -/
  errIllegal : Bool
  /-- `err_misuse` [10_state.md R31]. -/
  errMisuse : Bool
  /-- `err_capacity` [10_state.md R31]. -/
  errCapacity : Bool
  /-- What the input ports carry at the coming edges, next first (log 5). -/
  inputs : List PortIn
  /-- The access presented and not yet acked, which the host keeps stable [44_register_access.md R160] (log 6). -/
  request : Option HostAccess
  /-- What `ack` showed in the cycle before the last edge [44_register_access.md R160] (log 7). -/
  ack : Bool
  /-- The value returned by the read performed at the last edge, none if none was [44_register_access.md R161] (log 7). -/
  rdata : Option Word
deriving DecidableEq, Repr

/-- Eight zero words, the value the model gives `v` at reset (log 1). -/
def Words8.zero : Words8 := ⟨0, 0, 0, 0, 0, 0, 0, 0⟩

/-- Sixteen zero words, the value the model gives `win` at reset (log 2). -/
def Words16.zero : Words16 := ⟨0, 0, 0, 0, 0, 0, 0, 0, 0, 0, 0, 0, 0, 0, 0, 0⟩

/-- The state after reset [10_state.md R39]. `v`, `win` and `buf` are unspecified there (R35); the model's choices are
logs 1, 2 and 3, those of its own port fields logs 5, 6 and 7. -/
def State.reset : State where
  h := iv
  v := Words8.zero
  win := Words16.zero
  eng := .idle
  rnd := 0
  pad := .pNone
  buf := []
  bufLen := 0
  totalLen := 0
  phase := .fresh
  data := 0
  errIllegal := false
  errMisuse := false
  errCapacity := false
  inputs := []
  request := none
  ack := false
  rdata := none

/-- Why the machine stops. None is a condition of the spec's: the block has no trap and never hangs [60_exceptions.md R185,
70_reset_and_hazards.md R206]. Each is raised only in a state the spec says is never held (log 9), or on a byte without a
value (log 3). -/
inductive Fault where
  /-- Raised by `memRead`, `memWrite` and `bufferedBytes` for an address outside the block buffer, where MemRead and
  MemWrite are not defined [00_scope.md R10], and for `buf_len` of 64 or more, never held [10_state.md R27]. Safe. -/
  | bufferRange
  /-- Raised by `memRead` for a byte that nothing has written since reset, which no rule reads [10_state.md R35,
  43_streaming_driver.md R151]. Safe. -/
  | bufferUnwritten
  /-- Raised by `engineEdge` for `rnd` of 65 to 127 in COMPRESS, never held: no rule gives the engine a step there
  [10_state.md R24, 42_block_compressor.md R125, R126]. Safe. -/
  | roundCounter
  /-- Raised by `lengthField` where the bit length does not fit in 64 bits, which the capacity check excludes
  [43_streaming_driver.md R150]. Safe. -/
  | bitLength
deriving DecidableEq, Repr

/-- Why the model gives a step no meaning. -/
inductive Refusal where
  /-- Raised by an arm of `exec` that has no meaning yet; none is left. Safe. -/
  | notModelled (mnemonic : String)
  /-- Raised by `step` where the host changes or drops an access before its ack: "a model must refuse it"
  [44_register_access.md R160]. Safe (log 6). -/
  | requestWithdrawn
deriving DecidableEq, Repr

end Sys2Proof.Machine
end

