-- ==== Sys2Proof/Machine/Ops.lean ====
section
/-! DEFINITION. Shared operations over the state: raising an error flag, the accesses to the block buffer, the end of an edge for the access presented at it. -/

namespace Sys2Proof.Machine

/-- The outcome of a step whose only possible stop is a fault. -/
def toOutcome : Except Fault State → Host.Outcome State Fault Refusal
  | .ok s => .next s
  | .error r => .fault r

/-- The next state of an outcome, none where it is a fault or a refusal. -/
def stateAfter? : Host.Outcome State Fault Refusal → Option State
  | .next s => some s
  | .fault _ => none
  | .refused _ => none

/-! ### Errors -/

/-- The three error kinds [60_exceptions.md R180 to R182]. -/
inductive Err where
  | illegal
  | misuse
  | capacity
deriving DecidableEq, Repr

/-- `raise <Err>`: set the sticky flag, change nothing else, trap nowhere [00_scope.md R11, 60_exceptions.md R184, R185]. -/
def raise : Err → State → State
  | .illegal, s => { s with errIllegal := true }
  | .misuse, s => { s with errMisuse := true }
  | .capacity, s => { s with errCapacity := true }

/-! ### The block buffer -/

/-- `MemRead(k, n)`, defined only for `k + n <= 64` [00_scope.md R10]. -/
def memRead (m : Memory) (k n : Nat) : Except Fault (List Byte) :=
  if k + n ≤ 64 then
    match m.readRun k n with
    | some bs => .ok bs
    | none => .error .bufferUnwritten
  else .error .bufferRange

/-- `MemWrite(k, n, s)` with `n` the length of `s`, defined only for `k + n <= 64` [00_scope.md R10]. -/
def memWrite (m : Memory) (k : Nat) (bs : List Byte) : Except Fault Memory :=
  if k + bs.length ≤ 64 then .ok (m.writeRun k bs) else .error .bufferRange

/-- The valid bytes of the buffer, `MemRead(0, buf_len)` [10_state.md R26, R27]. -/
def bufferedBytes (s : State) : Except Fault (List Byte) :=
  if s.bufLen.toNat < blockBytes then memRead s.buf 0 s.bufLen.toNat else .error .bufferRange

/-! ### The end of an edge -/

/-- The edge performs the access presented, with the value it returns if it is a read [44_register_access.md R160, R161]. -/
def acked (value : Option Word) (s : State) : State :=
  { s with request := none, ack := true, rdata := value }

/-- The edge performs no access: `ack` was 0 in the cycle before it, and an access presented stays presented
[44_register_access.md R160]. -/
def notAcked (s : State) : State :=
  { s with ack := false, rdata := none }

/-- A write to DATA [44_register_access.md R162]. -/
def setData (w : Word) (s : State) : State :=
  { s with data := w }

end Sys2Proof.Machine
end

