-- ==== Sys2Proof/Machine/Flags.lean ====
section
/-! DEFINITION. Every flag computation: BUSY, the phase code, DIGEST_VALID, the composed STATUS word. -/

namespace Sys2Proof.Machine

/-- `BUSY = (eng = COMPRESS)` [10_state.md R23]. -/
def State.busy (s : State) : Bool := s.eng == .compress

/-- DIGEST_VALID, 1 iff `phase = FINALIZED` [10_state.md R32]. -/
def State.digestValid (s : State) : Bool := s.phase == .finalized

/-- The code of a phase [10_state.md R29]. -/
def Phase.code : Phase → BitVec 2
  | .fresh => 0b00
  | .accumulating => 0b01
  | .finalized => 0b10
  | .finalizing => 0b11

/-- STATUS, from bit 31 down: reserved [31:15], BUF_LEN [14:8], reserved [7], ERR_CAPACITY [6], ERR_MISUSE [5],
ERR_ILLEGAL [4], DIGEST_VALID [3], PHASE [2:1], BUSY [0] [10_state.md R32]. -/
def State.status (s : State) : Word :=
  0#17 ++ s.bufLen ++ 0#1 ++ BitVec.ofBool s.errCapacity ++ BitVec.ofBool s.errMisuse ++
    BitVec.ofBool s.errIllegal ++ BitVec.ofBool s.digestValid ++ s.phase.code ++ BitVec.ofBool s.busy

end Sys2Proof.Machine
end

