-- ==== Sys2Proof/Machine/Operands.lean ====
section
/-! DEFINITION. Operands as byte sequences: the bytes an UPDATE takes from DATA, big-endian reads and writes of words, the length field. -/

namespace Sys2Proof.Machine

/-- `be32(s, i)`, four bytes from byte `i` as a big-endian word [00_scope.md R8]. It is used inside `s` only, so the default
byte is never read. -/
def be32 (s : List Byte) (i : Nat) : Word :=
  s.getD i 0 ++ s.getD (i + 1) 0 ++ s.getD (i + 2) 0 ++ s.getD (i + 3) 0

/-- `be32bytes(v)`, most significant byte first [00_scope.md R8]. -/
def be32bytes (v : Word) : List Byte :=
  [v.extractLsb' 24 8, v.extractLsb' 16 8, v.extractLsb' 8 8, v.extractLsb' 0 8]

/-- `be64bytes(v)`, most significant byte first [00_scope.md R8]. -/
def be64bytes (v : BitVec 64) : List Byte :=
  be32bytes (v.extractLsb' 32 32) ++ be32bytes (v.extractLsb' 0 32)

/-- `zeros(n)` [00_scope.md R8]. -/
def zeros (n : Nat) : List Byte := List.replicate n 0

/-- `bytes(DATA, n)`, the operand of UPDATE: the top `n` byte lanes of DATA, most significant first
[30_encoding.md R78]. -/
def operandBytes (data : Word) (n : Fin 5) : List Byte := (be32bytes data).take n.val

/-- The DATA word a host writes for a group of at most four message bytes: byte `i` in lane `DATA[31-8i:24-8i]`
[20_memory.md R55, R56]. The lanes it does not use are ignored by the UPDATE; this packing leaves them 0. -/
def packBytes (s : List Byte) : Word := be32 (s ++ zeros 4) 0

/-- `Lb = be64bytes(8 * N)`, the 8-byte big-endian bit length, computed exactly on naturals [43_streaming_driver.md R142,
R150]. Past 64 bits the spec gives no value: the capacity check keeps `N <= 2^61 - 1` (log 9). -/
def lengthField (n : BitVec 64) : Except Fault (List Byte) :=
  if 8 * n.toNat < 2 ^ 64 then .ok (be64bytes (BitVec.ofNat 64 (8 * n.toNat))) else .error .bitLength

end Sys2Proof.Machine
end

