-- ==== Sys2Proof/Machine/Registers.lean ====
section
/-! DEFINITION. The host's view of the registers: what a read of each register index returns, the digest formatter. -/

namespace Sys2Proof.Machine

/-- Element `i` of eight words [00_scope.md R9]. -/
def Words8.get (x : Words8) (i : BitVec 3) : Word :=
  match i.toNat with
  | 0 => x.w0
  | 1 => x.w1
  | 2 => x.w2
  | 3 => x.w3
  | 4 => x.w4
  | 5 => x.w5
  | 6 => x.w6
  | _ => x.w7

/-- `DIGEST(i)`: `H[i]` in phase FINALIZED, else 0 [44_register_access.md R165]. -/
def State.digestWord (s : State) (i : BitVec 3) : Word :=
  if s.phase = .finalized then s.h.get i else 0

/-- LEN_LO, `total_len[31:0]` [10_state.md R33, 44_register_access.md R164]. -/
def State.lenLo (s : State) : Word := s.totalLen.extractLsb' 0 32

/-- LEN_HI, `total_len[63:32]` [10_state.md R33, 44_register_access.md R164]. -/
def State.lenHi (s : State) : Word := s.totalLen.extractLsb' 32 32

/-- `RegValue(A)`, the read data of register index `A` [44_register_access.md R161]. -/
def State.regValue (s : State) (a : BitVec 4) : Word :=
  match a.toNat with
  | 0 => 0
  | 1 => s.data
  | 2 => s.status
  | 3 => 0
  | 4 => s.lenLo
  | 5 => s.lenHi
  | 6 => 0
  | 7 => 0
  | _ => s.digestWord (a.extractLsb' 0 3)

/-- `digest_o`: `DIGEST(i)` in bits `255 - 32i` down to `224 - 32i` [44_register_access.md R166]. -/
def State.digestOut (s : State) : BitVec 256 :=
  s.digestWord 0 ++ s.digestWord 1 ++ s.digestWord 2 ++ s.digestWord 3 ++
    s.digestWord 4 ++ s.digestWord 5 ++ s.digestWord 6 ++ s.digestWord 7

/-- The 32 bytes of eight words, "each of the 8 internal 32-bit words serialized most-significant-byte-first, words in state
order" [44_register_access.md R166]. -/
def Words8.bytes (x : Words8) : List Byte :=
  be32bytes x.w0 ++ be32bytes x.w1 ++ be32bytes x.w2 ++ be32bytes x.w3 ++
    be32bytes x.w4 ++ be32bytes x.w5 ++ be32bytes x.w6 ++ be32bytes x.w7

end Sys2Proof.Machine
end

