-- ==== Sys2Proof/Machine/Compressor.lean ====
section
/-! DEFINITION. The block compressor: the bit functions, the message schedule, the pure function `compress`, and the datapath's block load, round step and schedule window. -/

namespace Sys2Proof.Machine

/-! ### The bit functions -/

/-- `ROTR(x, n)`, `1 <= n <= 31` [42_block_compressor.md R110]. -/
def rotr (x : Word) (n : Nat) : Word := (x >>> n) ||| (x <<< (32 - n))

/-- `SHR(x, n)` [42_block_compressor.md R110]. -/
def shr (x : Word) (n : Nat) : Word := x >>> n

/-- `Σ0` [42_block_compressor.md R111]. -/
def bigSigma0 (x : Word) : Word := rotr x 2 ^^^ rotr x 13 ^^^ rotr x 22

/-- `Σ1` [42_block_compressor.md R112]. -/
def bigSigma1 (x : Word) : Word := rotr x 6 ^^^ rotr x 11 ^^^ rotr x 25

/-- `σ0` [42_block_compressor.md R113]. -/
def smallSigma0 (x : Word) : Word := rotr x 7 ^^^ rotr x 18 ^^^ shr x 3

/-- `σ1` [42_block_compressor.md R114]. -/
def smallSigma1 (x : Word) : Word := rotr x 17 ^^^ rotr x 19 ^^^ shr x 10

/-- `Ch` [42_block_compressor.md R115]. -/
def ch (x y z : Word) : Word := (x &&& y) ^^^ (~~~x &&& z)

/-- `Maj` [42_block_compressor.md R116]. -/
def maj (x y z : Word) : Word := (x &&& y) ^^^ (x &&& z) ^^^ (y &&& z)

/-! ### The pure function -/

/-- Round `t` on the working variables a..h, with the schedule word and the ROM word of `t` [42_block_compressor.md R121]. -/
def roundFn (k w : Word) : Words8 → Words8
  | ⟨a, b, c, d, e, f, g, h⟩ =>
    let t1 := h + bigSigma1 e + ch e f g + k + w
    let t2 := bigSigma0 a + maj a b c
    ⟨t1 + t2, a, b, c, d + t1, e, f, g⟩

/-- Word by word addition mod 2^32, the feed-forward [42_block_compressor.md R122]. -/
def addWords (x y : Words8) : Words8 :=
  ⟨x.w0 + y.w0, x.w1 + y.w1, x.w2 + y.w2, x.w3 + y.w3, x.w4 + y.w4, x.w5 + y.w5, x.w6 + y.w6, x.w7 + y.w7⟩

/-- The first sixteen schedule words of a 64-byte block [42_block_compressor.md R119]. -/
def parseBlock (b : List Byte) : Words16 :=
  ⟨be32 b 0, be32 b 4, be32 b 8, be32 b 12, be32 b 16, be32 b 20, be32 b 24, be32 b 28,
    be32 b 32, be32 b 36, be32 b 40, be32 b 44, be32 b 48, be32 b 52, be32 b 56, be32 b 60⟩

/-- The sixteen words in order. -/
def Words16.toList (x : Words16) : List Word :=
  [x.w0, x.w1, x.w2, x.w3, x.w4, x.w5, x.w6, x.w7, x.w8, x.w9, x.w10, x.w11, x.w12, x.w13, x.w14, x.w15]

/-- The next schedule word from the sixteen before it: `σ1(W[i-2]) + W[i-7] + σ0(W[i-15]) + W[i-16]`
[42_block_compressor.md R120]; the words before are given newest first. -/
def nextScheduleWord (newestFirst : List Word) : Word :=
  smallSigma1 (newestFirst.getD 1 0) + newestFirst.getD 6 0 + smallSigma0 (newestFirst.getD 14 0) +
    newestFirst.getD 15 0

/-- Extend a schedule, held newest first, by `n` words [42_block_compressor.md R120]. -/
def extendSchedule (newestFirst : List Word) : Nat → List Word
  | 0 => newestFirst
  | n + 1 => extendSchedule (nextScheduleWord newestFirst :: newestFirst) n

/-- The sixteen words of a block in order, `W[0..15]` [42_block_compressor.md R119]. -/
def blockWords (b : List Byte) : List Word := (List.range 16).map (fun t => be32 b (4 * t))

/-- Schedule word `W[i]` of a block for any `i`, the recurrence of R120 carried past 63 [42_block_compressor.md R127]. -/
def scheduleWord (b : List Byte) (i : Nat) : Word :=
  (extendSchedule (blockWords b).reverse (i + 1)).reverse.getD i 0

/-- The message schedule `W[0..63]` of a block, in order [42_block_compressor.md R119, R120]. -/
def schedule (b : List Byte) : List Word := (extendSchedule (blockWords b).reverse 48).reverse

/-- Rounds over a list of ROM words and schedule words [42_block_compressor.md R121, R123]. -/
def runRounds : List (Word × Word) → Words8 → Words8
  | [], x => x
  | kw :: rest, x => runRounds rest (roundFn kw.1 kw.2 x)

/-- `compress(Hin, B)`, the pure function [42_block_compressor.md R123]. -/
def compress (hin : Words8) (b : List Byte) : Words8 :=
  addWords hin (runRounds (romWords.zip (schedule b)) hin)

/-! ### The datapath -/

/-- `Load(B, p)` with `Hcur` [42_block_compressor.md R124]. -/
def load (b : List Byte) (p : PadState) (hcur : Words8) (s : State) : State :=
  { s with win := parseBlock b, v := hcur, rnd := 0, pad := p, eng := .compress }

/-- The window shifted by one word, `win[15]` the next schedule word [42_block_compressor.md R125]. -/
def shiftWindow (x : Words16) : Words16 :=
  ⟨x.w1, x.w2, x.w3, x.w4, x.w5, x.w6, x.w7, x.w8, x.w9, x.w10, x.w11, x.w12, x.w13, x.w14, x.w15,
    smallSigma1 x.w14 + x.w9 + smallSigma0 x.w1 + x.w0⟩

/-- The round step of the engine [42_block_compressor.md R125]. The ROM is addressed by `rnd[5:0]`. -/
def roundStep (s : State) : State :=
  { s with
    v := roundFn (rom (s.rnd.extractLsb' 0 6)) s.win.w0 s.v
    win := shiftWindow s.win
    rnd := s.rnd + 1 }

end Sys2Proof.Machine
end

