-- ==== Sys2Proof/Machine/Driver.lean ====
section
/-! DEFINITION. The streaming driver: byte append, padding blocks, the start of padding, the completion of a compression. -/

namespace Sys2Proof.Machine

/-- `Append(s)` [43_streaming_driver.md R140]. The bytes that complete a block go into the block loaded, those left over
start the next one; a `buf_len` of 64 or more is never held (log 9). -/
def append (bytes : List Byte) (s : State) : Except Fault State :=
  let k := s.bufLen.toNat
  let n := bytes.length
  if k + n < blockBytes then do
    let buf ← memWrite s.buf k bytes
    .ok { s with buf := buf, bufLen := BitVec.ofNat 7 (k + n) }
  else do
    let c := blockBytes - k
    let front ← bufferedBytes s
    let buf ← memWrite s.buf 0 (bytes.drop c)
    .ok (load (front ++ bytes.take c) .pNone s.h
      { s with buf := buf, bufLen := BitVec.ofNat 7 (n - c) })

/-- `PadA(m)` for the `m` buffered bytes and the length field `Lb` [43_streaming_driver.md R142]. -/
def padA (buffered lb : List Byte) : List Byte :=
  let m := buffered.length
  let block := buffered ++ [0x80] ++ zeros (63 - m)
  if m + 1 ≤ padLimit then block.take 56 ++ lb else block

/-- `PadB` [43_streaming_driver.md R142]. -/
def padB (lb : List Byte) : List Byte := zeros 56 ++ lb

/-- `StartPadding()` [43_streaming_driver.md R143]. -/
def startPadding (s : State) : Except Fault State := do
  let buffered ← bufferedBytes s
  let lb ← lengthField s.totalLen
  .ok (load (padA buffered lb) (if buffered.length + 1 ≤ padLimit then .pFinal else .pFirst) s.h s)

/-- The engine stops: `eng` IDLE, and `rnd` leaves 64 for 0 (log 4) [43_streaming_driver.md R144, 10_state.md R24]. -/
def stopEngine (s : State) : State :=
  { s with eng := .idle, rnd := 0 }

/-- `Complete(p, Hn)` with `p = pad` and `Hn` the H of the state [43_streaming_driver.md R144]. -/
def complete (s : State) : Except Fault State :=
  match s.pad with
  | .pNone => .ok (stopEngine s)
  | .pFirst => do
    let lb ← lengthField s.totalLen
    .ok (load (padB lb) .pFinal s.h s)
  | .pFinal => .ok { stopEngine s with phase := .finalized, bufLen := 0, pad := .pNone }

/-- The feed-forward step [42_block_compressor.md R126]. -/
def feedForward (s : State) : Except Fault State :=
  complete { s with h := addWords s.h s.v }

end Sys2Proof.Machine
end

