-- ==== Sys2Proof/Machine/Engine.lean ====
section
/-! DEFINITION. What the engine does at one edge, and the two shapes of an edge at which an access is presented: a write of CMD, which is held while BUSY, and every other access, which is performed at once. -/

namespace Sys2Proof.Machine

/-- The engine's part of one edge with `rst = 0`: nothing while IDLE (R129), a round while `rnd < 64` (R125), the
feed-forward at `rnd = 64` (R126) [42_block_compressor.md]. `rnd` of 65 or more is never held in COMPRESS and no rule gives
a step there (log 9). -/
def engineEdge (s : State) : Except Fault State :=
  match s.eng with
  | .idle => .ok s
  | .compress =>
    if s.rnd.toNat < 64 then .ok (roundStep s)
    else if s.rnd.toNat = 64 then feedForward s
    else .error .roundCounter

/-- `n` edges of the engine alone. -/
def engineEdges : Nat → State → Except Fault State
  | 0, s => .ok s
  | n + 1, s =>
    match engineEdge s with
    | .ok s' => engineEdges n s'
    | .error r => .error r

/-- The edge at which a command is presented: held while BUSY = 1, so that only the engine acts and `ack` stays 0; performed
at once while BUSY = 0 [44_register_access.md R160, R169; 41_commands.md R91]. -/
def commandEdge (command : State → Except Fault State) (s : State) : Host.Outcome State Fault Refusal :=
  if s.busy then
    match engineEdge s with
    | .ok s' => .next (notAcked s')
    | .error r => .fault r
  else
    match command s with
    | .ok s' => .next (acked none s')
    | .error r => .fault r

/-- The edge at which a read, a DATA write or an ignored write is presented: the engine's step and the access, whose order is
immaterial [44_register_access.md R160, R170]. A read returns the value before the edge, so its caller passes that value. -/
def accessEdge (value : Option Word) (write : State → State) (s : State) : Host.Outcome State Fault Refusal :=
  match engineEdge s with
  | .ok s' => .next (acked value (write s'))
  | .error r => .fault r

/-- The edge at which no access is presented: the engine's step alone [42_block_compressor.md R125, R126, R129]. -/
def idleEdge (s : State) : Host.Outcome State Fault Refusal :=
  match engineEdge s with
  | .ok s' => .next (notAcked s')
  | .error r => .fault r

end Sys2Proof.Machine
end

