-- ==== Sys2Proof/Machine/Access.lean ====
section
/-! DEFINITION. The register accesses other than the write of CMD: reads, the write of DATA, the ignored writes. The offset bits `b` are ignored by each [20_memory.md R52]. -/

namespace Sys2Proof.Machine

/-- The edge of a read of register index `a`: it returns the value from before the edge and changes nothing
[44_register_access.md R161; 20_memory.md R54, R60]. -/
def readEdge (a : BitVec 4) (s : State) : Host.Outcome State Fault Refusal :=
  accessEdge (some (s.regValue a)) id s

/-- The edge of a write that is ignored [44_register_access.md R167]. -/
def ignoredEdge (s : State) : Host.Outcome State Fault Refusal := accessEdge none id s

/-- WR_DATA, never held [44_register_access.md R162]. -/
def execWrData (_b : BitVec 2) (wdata : Word) (s : State) : Host.Outcome State Fault Refusal :=
  accessEdge none (setData wdata) s

/-- WR_IGNORED at STATUS or 0x0C [44_register_access.md R167]. -/
def execWrIgnoredStatus (_x : BitVec 1) (_b : BitVec 2) (_wdata : Word) (s : State) :
    Host.Outcome State Fault Refusal := ignoredEdge s

/-- WR_IGNORED at LEN_LO, LEN_HI, 0x18 or 0x1C [44_register_access.md R167]. -/
def execWrIgnoredLen (_x : BitVec 2) (_b : BitVec 2) (_wdata : Word) (s : State) :
    Host.Outcome State Fault Refusal := ignoredEdge s

/-- WR_IGNORED at DIGEST0..7 [44_register_access.md R167]. -/
def execWrIgnoredDigest (_x : BitVec 3) (_b : BitVec 2) (_wdata : Word) (s : State) :
    Host.Outcome State Fault Refusal := ignoredEdge s

/-- RD_CMD returns 0 [44_register_access.md R168]. -/
def execRdCmd (_b : BitVec 2) (s : State) : Host.Outcome State Fault Refusal := readEdge 0 s

/-- RD_DATA returns DATA [44_register_access.md R162]. -/
def execRdData (_b : BitVec 2) (s : State) : Host.Outcome State Fault Refusal := readEdge 1 s

/-- RD_STATUS returns STATUS and clears no flag [44_register_access.md R163]. -/
def execRdStatus (_b : BitVec 2) (s : State) : Host.Outcome State Fault Refusal := readEdge 2 s

/-- RD_RESERVED at 0x0C returns 0 [44_register_access.md R168]. -/
def execRdReserved (_b : BitVec 2) (s : State) : Host.Outcome State Fault Refusal := readEdge 3 s

/-- RD_LEN_LO returns `total_len[31:0]` [44_register_access.md R164]. -/
def execRdLenLo (_b : BitVec 2) (s : State) : Host.Outcome State Fault Refusal := readEdge 4 s

/-- RD_LEN_HI returns `total_len[63:32]` [44_register_access.md R164]. -/
def execRdLenHi (_b : BitVec 2) (s : State) : Host.Outcome State Fault Refusal := readEdge 5 s

/-- RD_RESERVED at 0x18 and 0x1C returns 0 [44_register_access.md R168]. -/
def execRdReservedHigh (x : BitVec 1) (_b : BitVec 2) (s : State) : Host.Outcome State Fault Refusal :=
  readEdge (0b011#3 ++ x) s

/-- RD_DIGEST i returns `H[i]` in phase FINALIZED, else 0 [44_register_access.md R165]. -/
def execRdDigest (i : BitVec 3) (_b : BitVec 2) (s : State) : Host.Outcome State Fault Refusal :=
  readEdge (0b1#1 ++ i) s

end Sys2Proof.Machine
end

