-- ==== Sys2Proof/Machine/Commands.lean ====
section
/-! DEFINITION. The commands: NOP, INIT, UPDATE, FINAL, an illegal word, and the write of CMD that performs one of them. -/

namespace Sys2Proof.Machine

/-- The effect of NOP [41_commands.md R92]. -/
def nopEffect (s : State) : Except Fault State := .ok s

/-- The effect of INIT [41_commands.md R93]. `DATA`, the buffer, `v` and `win` are not written. -/
def initEffect (s : State) : Except Fault State :=
  .ok { s with
    h := iv, bufLen := 0, totalLen := 0, phase := .fresh, pad := .pNone,
    errIllegal := false, errMisuse := false, errCapacity := false }

/-- The phase after an accepted UPDATE: FRESH becomes ACCUMULATING [41_commands.md R94, 43_streaming_driver.md R146]. -/
def Phase.afterUpdate : Phase → Phase
  | .fresh => .accumulating
  | .accumulating => .accumulating
  | .finalized => .finalized
  | .finalizing => .finalizing

/-- The effect of UPDATE n [41_commands.md R94]. -/
def updateEffect (n : Fin 5) (s : State) : Except Fault State :=
  if s.phase = .finalized then .ok (raise .misuse s)
  else if maxBytes < s.totalLen.toNat + n.val then .ok (raise .capacity s)
  else
    append (operandBytes s.data n)
      { s with totalLen := s.totalLen + BitVec.ofNat 64 n.val, phase := s.phase.afterUpdate }

/-- The effect of FINAL [41_commands.md R95]. -/
def finalEffect (s : State) : Except Fault State :=
  if s.phase = .finalized then .ok (raise .misuse s)
  else startPadding { s with phase := .finalizing }

/-- The effect of an illegal word [41_commands.md R90, 60_exceptions.md R180]. -/
def illegalEffect (s : State) : Except Fault State := .ok (raise .illegal s)

/-- The edge at which a write of CMD carries the word of NOP [41_commands.md R92]. -/
def execNop (s : State) : Host.Outcome State Fault Refusal := commandEdge nopEffect s

/-- The edge at which a write of CMD carries the word of INIT [41_commands.md R93]. -/
def execInit (s : State) : Host.Outcome State Fault Refusal := commandEdge initEffect s

/-- The edge at which a write of CMD carries the word of UPDATE n [41_commands.md R94]. -/
def execUpdate (n : Fin 5) (s : State) : Host.Outcome State Fault Refusal := commandEdge (updateEffect n) s

/-- The edge at which a write of CMD carries the word of FINAL [41_commands.md R95]. -/
def execFinal (s : State) : Host.Outcome State Fault Refusal := commandEdge finalEffect s

/-- The edge at which a write of CMD carries an illegal word; nothing records the word [60_exceptions.md R180]. -/
def execIllegal (_word : Word) (s : State) : Host.Outcome State Fault Refusal := commandEdge illegalEffect s

/-- WR_CMD: `perform_cmd(wdata)`, held while BUSY whatever the word [44_register_access.md R169; 41_commands.md R90]. The
offset bits `b` are ignored. -/
def execWrCmd (_b : BitVec 2) (wdata : Word) (s : State) : Host.Outcome State Fault Refusal :=
  match decodeCmd wdata with
  | .nop => execNop s
  | .init => execInit s
  | .update n => execUpdate n s
  | .final => execFinal s
  | .illegal w => execIllegal w s

end Sys2Proof.Machine
end

