-- ==== Sys2Proof/Machine/Dispatch.lean ====
section
/-! DEFINITION. One arm per instruction. -/

namespace Sys2Proof.Machine

def exec (i : Instr) (s : State) : Host.Outcome State Fault Refusal :=
  match i with
  | .nop => Sys2Proof.Machine.execNop s
  | .init => Sys2Proof.Machine.execInit s
  | .update n => Sys2Proof.Machine.execUpdate n s
  | .final => Sys2Proof.Machine.execFinal s
  | .illegal word => Sys2Proof.Machine.execIllegal word s
  | .wrCmd b wdata => Sys2Proof.Machine.execWrCmd b wdata s
  | .wrData b wdata => Sys2Proof.Machine.execWrData b wdata s
  | .wrIgnoredStatus x b wdata => Sys2Proof.Machine.execWrIgnoredStatus x b wdata s
  | .wrIgnoredLen x b wdata => Sys2Proof.Machine.execWrIgnoredLen x b wdata s
  | .wrIgnoredDigest x b wdata => Sys2Proof.Machine.execWrIgnoredDigest x b wdata s
  | .rdCmd b => Sys2Proof.Machine.execRdCmd b s
  | .rdData b => Sys2Proof.Machine.execRdData b s
  | .rdStatus b => Sys2Proof.Machine.execRdStatus b s
  | .rdReserved b => Sys2Proof.Machine.execRdReserved b s
  | .rdLenLo b => Sys2Proof.Machine.execRdLenLo b s
  | .rdLenHi b => Sys2Proof.Machine.execRdLenHi b s
  | .rdReservedHigh x b => Sys2Proof.Machine.execRdReservedHigh x b s
  | .rdDigest k b => Sys2Proof.Machine.execRdDigest k b s

end Sys2Proof.Machine
end

