-- ==== Sys2Proof/Machine/Ports.lean ====
section
/-! DEFINITION. The ports: what the input ports carry before the next edge, what the output ports show, the reset edge. -/

namespace Sys2Proof.Machine

/-- What the input ports carry before the next edge: the head of `inputs`; past the end of the list no reset and the access
that is still held, if any (log 5). -/
def State.nextIn (s : State) : PortIn :=
  match s.inputs with
  | p :: _ => p
  | [] => ⟨false, s.request⟩

/-- The ports carry `p` before the edge that comes: it is taken from `inputs`, and its access, if any, stands as presented
until an edge acks it [44_register_access.md R160]. -/
def State.present (s : State) (p : PortIn) : State :=
  { s with inputs := s.inputs.tail, request := p.req }

/-- The host changed or dropped an access before its ack, which has "no defined effect" [44_register_access.md R160]
(log 6). -/
def State.withdraws (s : State) (p : PortIn) : Bool :=
  match s.request with
  | some a => p.req != some a
  | none => false

/-- Is the access a write to CMD, whose register index `addr[5:2]` is 0 [44_register_access.md R160, 20_memory.md R52]? -/
def accessIsCmdWrite : HostAccess → Bool
  | .read _ => false
  | .write addr _ => addr.extractLsb' 2 4 == 0

/-- `acceptable` [44_register_access.md R160]. -/
def State.acceptable (s : State) (a : HostAccess) : Bool := !(accessIsCmdWrite a && s.busy)

/-- The output `ack := req and not rst and acceptable`, combinational [44_register_access.md R160]. -/
def State.ackOut (s : State) (p : PortIn) : Bool :=
  match p.req with
  | some a => !p.rst && s.acceptable a
  | none => false

/-- The output `rdata`, valid while a read is presented [20_memory.md R51, 44_register_access.md R161]; the spec gives it no
value otherwise. -/
def State.rdataOut (s : State) (p : PortIn) : Option Word :=
  match p.req with
  | some (.read addr) => some (s.regValue (addr.extractLsb' 2 4))
  | some (.write _ _) => none
  | none => none

/-- The output `busy_o`, equal to STATUS.BUSY [20_memory.md R51]. -/
def State.busyOut (s : State) : Bool := s.busy

/-- The output `digest_valid_o`, equal to STATUS.DIGEST_VALID [20_memory.md R51, 44_register_access.md R166]. -/
def State.digestValidOut (s : State) : Bool := s.digestValid

/-- The edge with `rst = 1`: every piece of state takes its reset value, no access and no engine step is performed, and an
access presented stays presented [70_reset_and_hazards.md R200, R201]. The inputs of later edges are no state of the
block. -/
def resetEdge (s : State) : State :=
  { State.reset with inputs := s.inputs, request := s.request }

/-- The input that presents an access with no reset. -/
def PortIn.presents (a : HostAccess) : PortIn := ⟨false, some a⟩

/-- Put an access on the ports as the next thing the block sees: no other access is outstanding, the later inputs stand
behind it (log 5). -/
def State.withAccess (s : State) (a : HostAccess) : State :=
  { s with inputs := PortIn.presents a :: s.inputs, request := none }

end Sys2Proof.Machine
end

