-- ==== Sys2Proof/Machine/Step.lean ====
section
/-! DEFINITION. One step: one rising edge of the clock. -/

namespace Sys2Proof.Machine

/-- One rising edge of `clk` [00_scope.md R12, R18; 44_register_access.md R160; 70_reset_and_hazards.md R200]: a withdrawn
access is refused; `rst = 1` resets; otherwise the access presented is decoded and runs, or the engine steps alone. -/
def step (s : State) : Host.Outcome State Fault Refusal :=
  if s.withdraws s.nextIn then .refused .requestWithdrawn
  else if s.nextIn.rst then .next (resetEdge (s.present s.nextIn))
  else
    match s.nextIn.req with
    | some a => exec (decodeAccess a) (s.present s.nextIn)
    | none => idleEdge (s.present s.nextIn)

/-- The state with the access of a numbered word on the ports before the next edge, so that the next step runs it (logs 5
and 14). -/
def State.withFetchWord (s : State) (nbits w : Nat) : State := s.withAccess (accessOfTableWord nbits w)

end Sys2Proof.Machine
end

