-- ==== Sys2Proof/Config.lean ====
section
/-! DEFINITION. Open values, which no step of the machine reads: the parts of the open parameter `BUS_BINDING` that a model can name (log 10), and what a host program holds before its first read (log 15). -/

namespace Sys2Proof

/-- `BUS_BINDING` [20_memory.md R55]: the byte lane of a host bus that carries byte `i` of `wdata` or `rdata`, counted from
the most significant byte. Open: no value is known (log 10). -/
opaque Config.busByteLane : Fin 4 → Fin 4

/-- The base address of the 64-byte register window, "the platform's choice" [20_memory.md R57]. Open (log 10). -/
opaque Config.windowBase : Nat

/-- `BUS_BINDING` [00_scope.md R5, 60_exceptions.md R187]: which master numbers of the platform can reach the block.
Open (log 10). -/
opaque Config.masterReaches : Nat → Bool

/-- The "last value read" that a BNZ tests before any RD of its program [30_encoding.md R79]: the spec states none, so it is
a free value (log 15). -/
opaque Config.lastBeforeRead : Word

end Sys2Proof
end

