-- ==== Sys2Proof/Machine/Assembly.lean ====
section
/-! DEFINITION. The host's assembly language: machine instructions WR and RD, the host's control lines BNZ and HALT, the pseudo-instructions with their expansions, and a host that runs such a program against the ports. Nothing in `step` uses this file. -/

namespace Sys2Proof.Machine

/-- A line of a host program [30_encoding.md R79]. A label stands as the index of the line it names (log 13). -/
inductive AsmLine where
  /-- `WR <reg>, <imm32>`: a write access. -/
  | wr (offset : BitVec 6) (imm : Word)
  /-- `RD <reg>`: a read access, whose value is logged. -/
  | rd (offset : BitVec 6)
  /-- `BNZ <label>, <mask>`: a host action, no access. -/
  | bnz (target : Nat) (mask : Word)
  /-- `HALT`: the program ends. -/
  | halt
deriving DecidableEq, Repr

/-- A source line: a machine line or a pseudo-instruction [30_encoding.md R80]. -/
inductive AsmSource where
  | line (l : AsmLine)
  | nop
  | init
  | update (n : Fin 5)
  | final
  | push (n : Fin 5) (imm : Word)
  | waitIdle
  | pollIdle
  | rdDigest
  | hash (message : List Byte)
deriving DecidableEq, Repr

/-- The offsets of the named registers [10_state.md R36]. -/
def offCmd : BitVec 6 := 0x00
/-- DATA. -/
def offData : BitVec 6 := 0x04
/-- STATUS. -/
def offStatus : BitVec 6 := 0x08
/-- LEN_LO. -/
def offLenLo : BitVec 6 := 0x10
/-- LEN_HI. -/
def offLenHi : BitVec 6 := 0x14
/-- DIGESTi, `0x20 + 4i`. -/
def offDigest (i : BitVec 3) : BitVec 6 := 1#1 ++ i ++ 0#2

/-- `WR CMD` of a command's word [30_encoding.md R80]. -/
def asmCommand (c : Command) : AsmLine := .wr offCmd (encodeCmd c)

/-- `PUSH n, imm32` [30_encoding.md R80]. -/
def asmPush (n : Fin 5) (imm : Word) : List AsmLine := [.wr offData imm, asmCommand (.update n)]

/-- `RDDIGEST`: eight reads in index order [30_encoding.md R80]. -/
def asmRdDigest : List AsmLine :=
  [.rd (offDigest 0), .rd (offDigest 1), .rd (offDigest 2), .rd (offDigest 3),
    .rd (offDigest 4), .rd (offDigest 5), .rd (offDigest 6), .rd (offDigest 7)]

/-- A message in groups of four bytes, the last one shorter, each a PUSH [30_encoding.md R80, 20_memory.md R56]. -/
def messagePushes : List Byte → List (Fin 5 × Word)
  | [] => []
  | [a] => [(1, packBytes [a])]
  | [a, b] => [(2, packBytes [a, b])]
  | [a, b, c] => [(3, packBytes [a, b, c])]
  | a :: b :: c :: d :: rest => (4, packBytes [a, b, c, d]) :: messagePushes rest

/-- `HASH s` [30_encoding.md R80; the host sequence of 70_reset_and_hazards.md R204]. -/
def asmHash (message : List Byte) : List AsmLine :=
  [asmCommand .init] ++ (messagePushes message).flatMap (fun p => asmPush p.1 p.2) ++
    [asmCommand .final, asmCommand .nop] ++ asmRdDigest

/-- The expansion of a source line that stands at line `base` [30_encoding.md R80]. -/
def AsmSource.expand (base : Nat) : AsmSource → List AsmLine
  | .line l => [l]
  | .nop => [asmCommand .nop]
  | .init => [asmCommand .init]
  | .update n => [asmCommand (.update n)]
  | .final => [asmCommand .final]
  | .push n imm => asmPush n imm
  | .waitIdle => [asmCommand .nop]
  | .pollIdle => [.rd offStatus, .bnz base 0x1]
  | .rdDigest => asmRdDigest
  | .hash message => asmHash message

/-- Expand a program from line `base` on. -/
def assemble (base : Nat) : List AsmSource → List AsmLine
  | [] => []
  | x :: rest => x.expand base ++ assemble (base + (x.expand base).length) rest

/-- A host running a program: the line it is at, the last value read, and the values read so far [30_encoding.md R79].
Before the first read `last` is a free value (log 15). -/
structure HostAgent where
  program : List AsmLine
  line : Nat
  last : Word
  log : List Word
deriving DecidableEq, Repr

/-- Follow the control lines, which take no edge [95_test_vectors.md section 3], to the next access, `HALT` or the end. A
loop of control lines alone uses up the fuel and presents no access (log 13). -/
def HostAgent.toAccess : Nat → HostAgent → HostAgent
  | 0, a => a
  | fuel + 1, a =>
    match a.program[a.line]? with
    | some (.bnz target mask) =>
      HostAgent.toAccess fuel { a with line := if a.last &&& mask ≠ 0 then target else a.line + 1 }
    | some (.wr _ _) => a
    | some (.rd _) => a
    | some .halt => a
    | none => a

/-- The access the host presents at its line; at `HALT`, and past the last line as there (log 13), none. -/
def HostAgent.access (a : HostAgent) : Option HostAccess :=
  match a.program[a.line]? with
  | some (.wr offset imm) => some (.write offset imm)
  | some (.rd offset) => some (.read offset)
  | some (.bnz _ _) => none
  | some .halt => none
  | none => none

/-- The host after its access was acked: the next line, the value read logged [30_encoding.md R79]. -/
def HostAgent.afterAck (a : HostAgent) (value : Option Word) : HostAgent :=
  match value with
  | some w => { a with line := a.line + 1, last := w, log := a.log ++ [w] }
  | none => { a with line := a.line + 1 }

/-- One edge of the host and the block: the host holds its access on the ports until the block acks it
[44_register_access.md R160]. -/
def hostEdge (a : HostAgent) (s : State) : Except (Host.Outcome State Fault Refusal) (HostAgent × State) :=
  let a := a.toAccess (a.program.length + 1)
  match step { s with inputs := [⟨false, a.access⟩] } with
  | .next t => .ok (if t.ack then a.afterAck t.rdata else a, t)
  | .fault r => .error (.fault r)
  | .refused r => .error (.refused r)

/-- `n` edges of the host and the block. -/
def hostEdges : Nat → HostAgent → State → Except (Host.Outcome State Fault Refusal) (HostAgent × State)
  | 0, a, s => .ok (a, s)
  | n + 1, a, s =>
    match hostEdge a s with
    | .ok r => hostEdges n r.1 r.2
    | .error o => .error o

/-- A host at the start of a program. What a BNZ before any RD tests is not stated by the spec: DESIGN CHOICE, a free value
(log 15). -/
def HostAgent.start (program : List AsmSource) : HostAgent := ⟨assemble 0 program, 0, Config.lastBeforeRead, []⟩

end Sys2Proof.Machine
end

