-- ==== Sys2Proof/Machine/Reference.lean ====
section
/-! DEFINITION. The transaction level of the spec [00_scope.md R16]: the standard's padding and digest as pure functions of a message, and a message fed to the machine in groups of at most four bytes. Nothing in `step` uses this file; statements compare the machine with it. -/

namespace Sys2Proof.Machine

/-- The first `n` 64-byte groups of a byte sequence [43_streaming_driver.md R148]. -/
def blocksOf (bytes : List Byte) (n : Nat) : List (List Byte) :=
  (List.range n).map (fun i => (bytes.drop (64 * i)).take 64)

/-- The hash value after compressing blocks in order [00_scope.md R16, 42_block_compressor.md R123]. -/
def compressAll (hin : Words8) (blocks : List (List Byte)) : Words8 := blocks.foldl compress hin

/-- The chaining value after the whole blocks of a message, from `IV` [10_state.md R38 (c)]. -/
def chainingValue (message : List Byte) : Words8 :=
  compressAll iv (blocksOf message (message.length / 64))

/-- The padded message `M ++ [0x80] ++ zeros(k) ++ be64bytes(8N)`, `k` the least number with `N + 1 + k = 56` modulo 64
[43_streaming_driver.md R149]. -/
def paddedMessage (message : List Byte) : List Byte :=
  message ++ [0x80] ++ zeros ((119 - message.length % 64) % 64) ++
    be64bytes (BitVec.ofNat 64 (8 * message.length))

/-- SHA-256 of a message as eight words [00_scope.md R2, 43_streaming_driver.md R148, R149]. -/
def sha256 (message : List Byte) : Words8 :=
  compressAll iv (blocksOf (paddedMessage message) ((paddedMessage message).length / 64))

/-- One outcome after another. -/
def andThen (o : Host.Outcome State Fault Refusal) (f : State → Host.Outcome State Fault Refusal) :
    Host.Outcome State Fault Refusal :=
  match o with
  | .next s => f s
  | .fault r => .fault r
  | .refused r => .refused r

/-- `n` steps of the machine, stopping at the first fault or refusal. -/
def steps : Nat → State → Host.Outcome State Fault Refusal
  | 0, s => .next s
  | n + 1, s => andThen (step s) (steps n)

/-- A group of message bytes as a host sends it: a DATA word and the count of its bytes [30_encoding.md R80, `PUSH`]. -/
abbrev Push := Word × Fin 5

/-- The bytes a push appends [30_encoding.md R78]. -/
def Push.bytes (p : Push) : List Byte := operandBytes p.1 p.2

/-- `PUSH n, w`: a DATA write, an UPDATE, and edges until the block the UPDATE may have completed is compressed
[30_encoding.md R80, 70_reset_and_hazards.md R208]. -/
def pushOne (p : Push) (s : State) : Host.Outcome State Fault Refusal :=
  andThen (exec (.wrData 0 p.1) s) fun s1 => andThen (exec (.update p.2) s1) (steps 65)

/-- Pushes in order. -/
def pushAll : List Push → State → Host.Outcome State Fault Refusal
  | [], s => .next s
  | p :: ps, s => andThen (pushOne p s) (pushAll ps)

/-- FINAL and the edges its padding blocks take [70_reset_and_hazards.md R208]. -/
def finish (s : State) : Host.Outcome State Fault Refusal := andThen (exec .final s) (steps 130)

end Sys2Proof.Machine
end

