-- ==== Sys2Proof/Safety.lean ====
section
/-! DEFINITION. What holds in every state a run reaches, and what the machine holds of the message appended so far. -/

namespace Sys2Proof.Machine

/-- The block's own state, with the model's port fields blanked: two states with the same `block` differ in nothing the spec
gives the machine [10_state.md sections 1 to 5]. -/
def State.block (s : State) : State := { s with inputs := [], request := none, ack := false, rdata := none }

/-- The port fields after an edge that performed an access with the value it returned: acked, nothing outstanding, the later
inputs as they were [44_register_access.md R160, R161]. The fields are the model's (logs 5 to 7). -/
structure State.Acked (t s : State) (value : Option Word) : Prop where
  ack : t.ack = true
  rdata : t.rdata = value
  request : t.request = none
  inputs : t.inputs = s.inputs

/-- Every engine-side change of the edge is the engine's own step: `t` is `s` after that step and the model's port fields
[44_register_access.md R170]; with the engine idle nothing of the block changed [42_block_compressor.md R129]. -/
structure State.OnlyEngine (t s : State) : Prop where
  engine : ∃ u, engineEdge s = .ok u ∧ t.block = u.block
  idle : s.eng = .idle → t.block = s.block

/-- The engine is idle, or in one of the situations the spec gives it a step for [42_block_compressor.md R125, R126;
43_streaming_driver.md R150]. -/
def State.EngineOk (s : State) : Prop :=
  s.eng = .compress → s.rnd.toNat ≤ 64 ∧ (s.pad = .pFirst → s.totalLen.toNat ≤ maxBytes)

/-- The edges with BUSY = 1 that are still to come without a reset: the rounds left and the feed-forward, and 65 more if
PadB follows [70_reset_and_hazards.md R208]. -/
def State.busyEdges (s : State) : Nat :=
  match s.eng with
  | .idle => 0
  | .compress => 65 - s.rnd.toNat + (if s.pad = .pFirst then 65 else 0)

/-- The presented access performs the command `c` at this edge [41_commands.md R90]. -/
def State.performs (s : State) (c : Command) : Prop :=
  s.nextIn.rst = false ∧ s.eng = .idle ∧
    ∃ a, s.nextIn.req = some a ∧ ∃ b w, decodeAccess a = .wrCmd b w ∧ decodeCmd w = c

/-- The invariant of the machine. Its clauses are facts the spec derives: a state outside it is one the spec says is never
held. -/
structure State.Inv (s : State) : Prop where
  /-- The buffer's cells are in canonical form, at addresses 0 to 63 [20_memory.md R50]. -/
  bufWf : Memory.wf s.buf
  /-- `buf_len` is 0 to 63 [10_state.md R27]. -/
  bufLenLt : s.bufLen.toNat < 64
  /-- Every valid byte has been written [43_streaming_driver.md R151]. -/
  bufFilled : Memory.filledBelow s.buf s.bufLen.toNat
  /-- `rnd` is 0 to 64 [10_state.md R24]. -/
  rndLe : s.rnd.toNat ≤ 64
  /-- While IDLE, `rnd` is 0 [41_commands.md R91] (log 4). -/
  idleRnd : s.eng = .idle → s.rnd = 0
  /-- While IDLE, `pad` is P_NONE [43_streaming_driver.md R145]. -/
  idlePad : s.eng = .idle → s.pad = .pNone
  /-- PHASE = FINALIZING with BUSY = 0 never occurs [10_state.md R32]. -/
  idlePhase : s.eng = .idle → s.phase ≠ .finalizing
  /-- A data block is compressed in phase ACCUMULATING. -/
  dataPhase : s.eng = .compress → s.pad = .pNone → s.phase = .accumulating
  /-- A padding block is compressed in phase FINALIZING [43_streaming_driver.md R143, R146]. -/
  padPhase : s.eng = .compress → s.pad ≠ .pNone → s.phase = .finalizing
  /-- Two padding blocks are used only from 56 buffered bytes on [43_streaming_driver.md R143]. -/
  firstLen : s.pad = .pFirst → padLimit ≤ s.bufLen.toNat
  /-- `total_len` never exceeds MAX_BYTES [10_state.md R28]. -/
  totalLe : s.totalLen.toNat ≤ maxBytes
  /-- `buf_len = total_len mod 64` before FINALIZED [10_state.md R38 (a)]. -/
  lenAgrees : s.phase ≠ .finalized → s.bufLen.toNat = s.totalLen.toNat % 64
  /-- In phase FINALIZED, `buf_len = 0` [10_state.md R38]. -/
  finalizedLen : s.phase = .finalized → s.bufLen = 0
  /-- In phase FRESH, `total_len = 0` [41_commands.md R96]. -/
  freshLen : s.phase = .fresh → s.totalLen = 0

/-- What holds of the bytes `message` appended since the last INIT or reset, at an edge with BUSY = 0 before FINAL
[10_state.md R38 (a) to (c)]. -/
structure State.Absorbed (s : State) (message : List Byte) : Prop where
  total : s.totalLen.toNat = message.length
  len : s.bufLen.toNat = message.length % 64
  buffered : Memory.readRun s.buf 0 s.bufLen.toNat = some (message.drop (64 * (message.length / 64)))
  chain : s.h = chainingValue message
  phase : s.phase = .fresh ∨ s.phase = .accumulating

/-- The machine is between messages or commands with nothing on its ports: the engine idle, no access outstanding, no input
to come (log 5). -/
structure State.Quiet (s : State) : Prop where
  idle : s.eng = .idle
  inputs : s.inputs = []
  request : s.request = none

/-- Does a step go on? -/
def goesOn (o : Host.Outcome State Fault Refusal) : Prop := ∃ t, o = .next t

/-- The access presented before the next edge agrees with one still held, so the step is not refused
[44_register_access.md R160]. -/
def State.holdsRequest (s : State) : Prop := s.withdraws s.nextIn = false

end Sys2Proof.Machine
end

