-- ==== Sys2Proof/Certificates/Slice0/Obligations.lean ====
section
/-! DEFINITION. The statements for the provers. -/

open Sys2Proof Sys2Proof.Machine

/-! ### Reset -/

/-- The reset state, with the model's own values for the cells the spec leaves open (logs 1 to 3), meets the invariant
[10_state.md R39]. -/
def Obligations.ResetMeetsInvariant : Prop := State.reset.Inv

/-- At an edge with `rst = 1` every piece of state takes its reset value, whatever ran before; no access is performed and the
one presented stays presented [10_state.md R39; 70_reset_and_hazards.md R200, R201]. The values of `v`, `win` and `buf`,
which R35 leaves unspecified, are not stated. The port fields are the model's (logs 6 and 7). -/
def Obligations.ResetEdgeGivesResetValues : Prop :=
  ∀ s : State, s.holdsRequest → s.nextIn.rst = true →
    ∃ t, step s = .next t ∧
      t.h = ⟨0x6a09e667, 0xbb67ae85, 0x3c6ef372, 0xa54ff53a, 0x510e527f, 0x9b05688c, 0x1f83d9ab, 0x5be0cd19⟩ ∧
      t.eng = .idle ∧ t.rnd = 0 ∧ t.pad = .pNone ∧ t.bufLen = 0 ∧ t.totalLen = 0 ∧ t.phase = .fresh ∧ t.data = 0 ∧
      t.errIllegal = false ∧ t.errMisuse = false ∧ t.errCapacity = false ∧
      t.status = 0 ∧ t.digestOut = 0 ∧ t.digestValidOut = false ∧ t.busyOut = false ∧
      t.ack = false ∧ t.request = s.nextIn.req

/-- The state after INIT, from any idle state of a run, is the state after reset but for DATA and the cells R35 leaves
unspecified [70_reset_and_hazards.md R202]. That `rnd` is 0 while idle is log 4. -/
def Obligations.InitGivesTheResetState : Prop :=
  ∀ s : State, s.Inv → s.eng = .idle →
    ∃ t, exec .init s = .next t ∧
      { t.block with data := State.reset.data, v := State.reset.v, win := State.reset.win, buf := State.reset.buf } =
        State.reset.block

/-! ### The step -/

/-- A step runs the access presented: `exec` of what its descriptor decodes to, at the state that has taken the input
[00_scope.md R18; 44_register_access.md R160]; with no access the engine steps alone. How inputs arrive is the model's choice
(log 5). -/
def Obligations.StepRunsThePresentedAccess : Prop :=
  (∀ (s : State) (a : HostAccess), s.holdsRequest → s.nextIn = ⟨false, some a⟩ →
    step s = exec (decodeAccess a) { s with inputs := s.inputs.tail, request := some a }) ∧
  (∀ s : State, s.holdsRequest → s.nextIn = ⟨false, none⟩ →
    step s = idleEdge { s with inputs := s.inputs.tail, request := none })

/-- A write of CMD performs the command its word decodes to [41_commands.md R90]: an illegal word raises ERR_ILLEGAL alone,
any other runs as its command does, and while BUSY = 0 it is performed at this edge. -/
def Obligations.CmdWritePerformsTheDecodedCommand : Prop :=
  ∀ (s : State) (b : BitVec 2) (w : Word),
    exec (.wrCmd b w) s = exec (decodeCmd w).toInstr s ∧
    (s.Inv → s.eng = .idle → ∃ t, exec (.wrCmd b w) s = .next t ∧ t.Acked s none ∧
      (decodeCmd w = .illegal w → t.block = { s.block with errIllegal := true }))

/-- The word the table gives an instruction, put where the step fetches, is run by the next step. The numbering and the
placing are the model's choice (logs 5 and 14). -/
def Obligations.FetchWordRunsItsInstruction : Prop :=
  ∀ (s : State) (nbits w : Nat) (i : Instr), decodeTableWord nbits w = some i →
    step (s.withFetchWord nbits w) = exec i { s with request := some (accessOfTableWord nbits w) }

/-- A step is refused exactly when the host changed or dropped an access before its ack [44_register_access.md R160] (log 6). -/
def Obligations.OnlyWithdrawnRequestsAreRefused : Prop :=
  ∀ (s : State) (r : Refusal), step s = .refused r ↔
    r = .requestWithdrawn ∧ ∃ a, s.request = some a ∧ s.nextIn.req ≠ some a

/-- Each edge shows `ack` by the handshake's formula, returns `rdata` for a performed read, and keeps an access that was not
acked [44_register_access.md R160, R161]. The fields that record it are the model's (logs 6 and 7). -/
def Obligations.HandshakeFollowsItsFormula : Prop :=
  ∀ s t : State, step s = .next t →
    t.ack = s.ackOut s.nextIn ∧
    t.rdata = (if t.ack then s.rdataOut s.nextIn else none) ∧
    t.request = (if t.ack then none else s.nextIn.req) ∧
    t.inputs = s.inputs.tail

/-! ### Encoding -/

/-- The encoding examples of R82 decode as they say [30_encoding.md R82]. -/
def Obligations.EncodingExamplesDecode : Prop :=
  decodeCmd 0x00000032 = .update 3 ∧
  (0x32#32).extractLsb' 0 4 = 0x2#4 ∧ (0x32#32).extractLsb' 4 3 = 3#3 ∧ (0x32#32).extractLsb' 7 25 = 0#25 ∧
  (∀ w, decodeDescriptor 0b0110100 w = .rdDigest 5 0 ∧ decodeDescriptor 0b0110101 w = .rdDigest 5 1) ∧
  decodeCmd 0x00000052 = .illegal 0x52 ∧ decodeCmd 0x00000080 = .illegal 0x80 ∧ decodeCmd 0x00000013 = .illegal 0x13

/-- The legal command words are exactly the eight of R75, each with its command; every other word raises ERR_ILLEGAL and
changes no other state, in every phase [30_encoding.md R75]. -/
def Obligations.LegalCommandWordsAreTheEight : Prop :=
  ∀ w : Word,
    (decodeCmd w = .nop ↔ w = 0x00000000) ∧
    (decodeCmd w = .init ↔ w = 0x00000001) ∧
    (decodeCmd w = .final ↔ w = 0x00000003) ∧
    (∀ n : Fin 5, decodeCmd w = .update n ↔ w = 0x00000002#32 ||| (BitVec.ofNat 32 n.val <<< 4)) ∧
    (w ∉ [0x00000000#32, 0x00000001, 0x00000003, 0x02, 0x12, 0x22, 0x32, 0x42] →
      decodeCmd w = .illegal w ∧
      ∀ (b : BitVec 2) (s : State), s.eng = .idle →
        ∃ t, exec (.wrCmd b w) s = .next t ∧ t.block = { s.block with errIllegal := true })

/-- Each BUS row of the opcode table, by its match and mask, decodes to its access, with the row's open bits as operands
[30_encoding.md R81; opcode_table.json]. -/
def Obligations.DescriptorRowsDecodeToTheirAccess : Prop :=
  ∀ (acc : BitVec 7) (w : Word),
    (acc &&& 0x7C = 0x40 → decodeDescriptor acc w = .wrCmd (acc.extractLsb' 0 2) w) ∧
    (acc &&& 0x7C = 0x44 → decodeDescriptor acc w = .wrData (acc.extractLsb' 0 2) w) ∧
    (acc &&& 0x78 = 0x48 → decodeDescriptor acc w = .wrIgnoredStatus (acc.extractLsb' 2 1) (acc.extractLsb' 0 2) w) ∧
    (acc &&& 0x70 = 0x50 → decodeDescriptor acc w = .wrIgnoredLen (acc.extractLsb' 2 2) (acc.extractLsb' 0 2) w) ∧
    (acc &&& 0x60 = 0x60 → decodeDescriptor acc w = .wrIgnoredDigest (acc.extractLsb' 2 3) (acc.extractLsb' 0 2) w) ∧
    (acc &&& 0x7C = 0x00 → decodeDescriptor acc w = .rdCmd (acc.extractLsb' 0 2)) ∧
    (acc &&& 0x7C = 0x04 → decodeDescriptor acc w = .rdData (acc.extractLsb' 0 2)) ∧
    (acc &&& 0x7C = 0x08 → decodeDescriptor acc w = .rdStatus (acc.extractLsb' 0 2)) ∧
    (acc &&& 0x7C = 0x0C → decodeDescriptor acc w = .rdReserved (acc.extractLsb' 0 2)) ∧
    (acc &&& 0x7C = 0x10 → decodeDescriptor acc w = .rdLenLo (acc.extractLsb' 0 2)) ∧
    (acc &&& 0x7C = 0x14 → decodeDescriptor acc w = .rdLenHi (acc.extractLsb' 0 2)) ∧
    (acc &&& 0x78 = 0x18 → decodeDescriptor acc w = .rdReservedHigh (acc.extractLsb' 2 1) (acc.extractLsb' 0 2)) ∧
    (acc &&& 0x60 = 0x20 → decodeDescriptor acc w = .rdDigest (acc.extractLsb' 2 3) (acc.extractLsb' 0 2))

/-- Decoding the encoding of a well-formed instruction gives it back, every operand at every value. The lengths of numbered
words are the model's choice (log 14). -/
def Obligations.DecodeOfEncodeIsTheInstruction : Prop :=
  ∀ i : Instr, i.wellFormed = true → decodeTableWord (encode i).nbits (encode i).bits = some i

/-- A numbered word that decodes gives a well-formed instruction, and is that instruction's encoding, bit for bit
(log 14). -/
def Obligations.EncodeOfDecodeIsTheWord : Prop :=
  ∀ (nbits w : Nat) (i : Instr), decodeTableWord nbits w = some i → i.wellFormed = true ∧ (encode i).bits = w

/-! ### Commands -/

/-- NOP while BUSY = 0 is performed at once and leaves the block's state as it is, in every phase; an edge that acks a NOP
is one with BUSY = 0, so every compression is complete [41_commands.md R92]. -/
def Obligations.NopChangesNothing : Prop :=
  (∀ s : State, s.eng = .idle →
    ∃ t, exec .nop s = .next t ∧ t.Acked s none ∧ t.block = s.block ∧
      ∀ a, Memory.readByte t.buf a = Memory.readByte s.buf a) ∧
  ∀ s t : State, exec .nop s = .next t → t.ack = true → s.busy = false

/-- INIT in every phase: H takes IV, counts, phase, pad and flags their initial values; DATA, the buffer, `v` and `win` are
not written; STATUS and the digest read 0 [41_commands.md R93]. -/
def Obligations.InitStartsANewMessage : Prop :=
  (∀ s : State, s.eng = .idle →
    ∃ t, exec .init s = .next t ∧ t.Acked s none ∧
      t.block = { s.block with
        h := ⟨0x6a09e667, 0xbb67ae85, 0x3c6ef372, 0xa54ff53a, 0x510e527f, 0x9b05688c, 0x1f83d9ab, 0x5be0cd19⟩
        bufLen := 0, totalLen := 0, phase := .fresh, pad := .pNone
        errIllegal := false, errMisuse := false, errCapacity := false } ∧
      t.status = 0 ∧ t.lenLo = 0 ∧ t.lenHi = 0 ∧ (∀ i, t.digestWord i = 0) ∧
      ∀ a, Memory.readByte t.buf a = Memory.readByte s.buf a) ∧
  (∃ t, exec .init State.reset = .next t ∧ t.block = State.reset.block)

/-- UPDATE n that completes no block: byte `i` of the operand, `DATA[31-8i:24-8i]`, is stored at `buf_len + i`, the counts
grow by `n`, FRESH becomes ACCUMULATING, nothing else changes [41_commands.md R94, 43_streaming_driver.md R140,
30_encoding.md R78]. -/
def Obligations.UpdateAppendsToTheBuffer : Prop :=
  ∀ (s : State) (n : Fin 5), s.Inv → s.eng = .idle → s.phase ≠ .finalized →
    s.totalLen.toNat + n.val ≤ maxBytes → s.bufLen.toNat + n.val < 64 →
    ∃ t, exec (.update n) s = .next t ∧ t.Acked s none ∧
      t.block = { s.block with
        buf := t.buf, bufLen := t.bufLen, totalLen := t.totalLen, phase := .accumulating } ∧
      t.bufLen.toNat = s.bufLen.toNat + n.val ∧ t.totalLen.toNat = s.totalLen.toNat + n.val ∧
      (∀ i < n.val, Memory.readByte t.buf (s.bufLen.toNat + i) = some (s.data.extractLsb' (24 - 8 * i) 8)) ∧
      ∀ a, a < s.bufLen.toNat ∨ s.bufLen.toNat + n.val ≤ a →
        Memory.readByte t.buf a = Memory.readByte s.buf a

/-- UPDATE n that completes a block: the buffered bytes and the first `64 - buf_len` operand bytes are loaded with P_NONE
and the engine starts from H; the operand bytes left over are stored from address 0 and are the new `buf_len`
[43_streaming_driver.md R140, 42_block_compressor.md R124]. -/
def Obligations.UpdateCompletesABlock : Prop :=
  ∀ (s : State) (n : Fin 5), s.Inv → s.eng = .idle → s.phase ≠ .finalized →
    s.totalLen.toNat + n.val ≤ maxBytes → 64 ≤ s.bufLen.toNat + n.val →
    ∃ t front, Memory.readRun s.buf 0 s.bufLen.toNat = some front ∧ exec (.update n) s = .next t ∧ t.Acked s none ∧
      t.block = { s.block with
        buf := t.buf, bufLen := t.bufLen, totalLen := t.totalLen, phase := .accumulating
        eng := .compress, rnd := 0, pad := .pNone, v := s.h
        win := parseBlock (front ++ (operandBytes s.data n).take (64 - s.bufLen.toNat)) } ∧
      t.bufLen.toNat = s.bufLen.toNat + n.val - 64 ∧ t.totalLen.toNat = s.totalLen.toNat + n.val ∧
      (∀ i < s.bufLen.toNat + n.val - 64,
        Memory.readByte t.buf i = some (s.data.extractLsb' (24 - 8 * (64 - s.bufLen.toNat + i)) 8)) ∧
      ∀ a, s.bufLen.toNat + n.val - 64 ≤ a → Memory.readByte t.buf a = Memory.readByte s.buf a

/-- FINAL before FINALIZED: with at most 55 buffered bytes one padding block is loaded (data, 0x80, zeros, length), with 56
or more the first of two (data, 0x80, zeros); `buf_len` keeps its value, and STATUS shows it, while FINALIZING
[43_streaming_driver.md R143, with PadA of R142; 41_commands.md R95]. -/
def Obligations.FinalStartsPadding : Prop :=
  (∀ s t : State, s.Inv → step s = .next t → s.phase = .finalizing → t.phase = .finalizing →
    t.bufLen = s.bufLen ∧ t.status.extractLsb' 8 7 = s.bufLen) ∧
  ∀ s : State, s.Inv → s.eng = .idle → s.phase ≠ .finalized →
    ∃ t front, Memory.readRun s.buf 0 s.bufLen.toNat = some front ∧ exec .final s = .next t ∧ t.Acked s none ∧
      (s.bufLen.toNat ≤ 55 →
        t.block = { s.block with
          phase := .finalizing, eng := .compress, rnd := 0, pad := .pFinal, v := s.h
          win := parseBlock (front ++ [0x80] ++ zeros (55 - s.bufLen.toNat) ++
            be64bytes (BitVec.ofNat 64 (8 * s.totalLen.toNat))) }) ∧
      (56 ≤ s.bufLen.toNat →
        t.block = { s.block with
          phase := .finalizing, eng := .compress, rnd := 0, pad := .pFirst, v := s.h
          win := parseBlock (front ++ [0x80] ++ zeros (63 - s.bufLen.toNat)) }) ∧
      ∀ a, Memory.readByte t.buf a = Memory.readByte s.buf a

/-- UPDATE of any count, and FINAL, in phase FINALIZED: ERR_MISUSE is set and nothing else changes; the digest stays
readable [60_exceptions.md R181]. -/
def Obligations.MisuseAfterFinalizeOnlySetsItsFlag : Prop :=
  ∀ (s : State) (i : Instr), s.eng = .idle → s.phase = .finalized → ((∃ n, i = .update n) ∨ i = .final) →
    ∃ t, exec i s = .next t ∧ t.Acked s none ∧ t.block = { s.block with errMisuse := true } ∧
      (t.status = s.status ||| 0x20) ∧ (∀ j, t.digestWord j = s.h.get j) ∧
      ∀ a, Memory.readByte t.buf a = Memory.readByte s.buf a

/-- UPDATE that would pass MAX_BYTES = 2^61 - 1, in phase FRESH or ACCUMULATING: ERR_CAPACITY is set and nothing else
changes, no byte is appended [60_exceptions.md R182]. -/
def Obligations.CapacityErrorOnlySetsItsFlag : Prop :=
  ∀ (s : State) (n : Fin 5), s.eng = .idle → (s.phase = .fresh ∨ s.phase = .accumulating) →
    2 ^ 61 - 1 < s.totalLen.toNat + n.val →
    ∃ t, exec (.update n) s = .next t ∧ t.Acked s none ∧ t.block = { s.block with errCapacity := true } ∧
      (t.status = s.status ||| 0x40) ∧ ∀ a, Memory.readByte t.buf a = Memory.readByte s.buf a

/-- An illegal word: by `RSV`, by `OP`, by `NBYTES` of UPDATE or of another command; it decodes as illegal in each case and
in no other, and performed in any phase sets ERR_ILLEGAL and nothing else [60_exceptions.md R180]. -/
def Obligations.IllegalWordOnlySetsItsFlag : Prop :=
  ∀ w : Word,
    (decodeCmd w = .illegal w ↔
      w.extractLsb' 7 25 ≠ 0 ∨ 4 ≤ (w.extractLsb' 0 4).toNat ∨
      ((w.extractLsb' 0 4).toNat = 2 ∧ 5 ≤ (w.extractLsb' 4 3).toNat) ∨
      ((w.extractLsb' 0 4).toNat ≠ 2 ∧ (w.extractLsb' 4 3).toNat ≠ 0)) ∧
    ∀ s : State, s.eng = .idle →
      ∃ t, exec (.illegal w) s = .next t ∧ t.Acked s none ∧ t.block = { s.block with errIllegal := true } ∧
        (t.status = s.status ||| 0x10) ∧ ∀ a, Memory.readByte t.buf a = Memory.readByte s.buf a

/-- The checks run in the order illegal, misuse, capacity, and the first that applies is the one flag set
[60_exceptions.md R183]. -/
def Obligations.ErrorsAreReportedInPriority : Prop :=
  ∀ (s : State) (b : BitVec 2) (w : Word), s.eng = .idle →
    (decodeCmd w = .illegal w →
      ∃ t, exec (.wrCmd b w) s = .next t ∧ t.block = { s.block with errIllegal := true }) ∧
    (decodeCmd w = .final ∨ (∃ n, decodeCmd w = .update n) → s.phase = .finalized →
      ∃ t, exec (.wrCmd b w) s = .next t ∧ t.block = { s.block with errMisuse := true }) ∧
    (∀ n, decodeCmd w = .update n → s.phase ≠ .finalized → maxBytes < s.totalLen.toNat + n.val →
      ∃ t, exec (.wrCmd b w) s = .next t ∧ t.block = { s.block with errCapacity := true })

/-- Every write of CMD is held while BUSY = 1, whatever its word: the engine alone steps, `ack` stays 0 and the access stays
presented [44_register_access.md R160, R169; 41_commands.md R91]. -/
def Obligations.CommandsAreHeldWhileBusy : Prop :=
  ∀ (s : State) (i : Instr), s.eng = .compress → s.EngineOk →
    (i = .nop ∨ i = .init ∨ (∃ n, i = .update n) ∨ i = .final ∨ (∃ w, i = .illegal w) ∨ ∃ b w, i = .wrCmd b w) →
    ∃ t, exec i s = .next t ∧ t.OnlyEngine s ∧
      t.ack = false ∧ t.rdata = none ∧ t.request = s.request ∧ t.inputs = s.inputs

/-! ### The engine -/

/-- The round step of the datapath, every register from the values before the edge, whatever access is presented: nothing
else changes but DATA, where the access writes it [42_block_compressor.md R125]. -/
def Obligations.RoundStepComputesItsRule : Prop :=
  ∀ s : State, s.eng = .compress → s.rnd.toNat < 64 → s.holdsRequest → s.nextIn.rst = false →
    ∃ t k, step s = .next t ∧ romWords[s.rnd.toNat]? = some k ∧
      let t1 := s.v.w7 + bigSigma1 s.v.w4 + ch s.v.w4 s.v.w5 s.v.w6 + k + s.win.w0
      let t2 := bigSigma0 s.v.w0 + maj s.v.w0 s.v.w1 s.v.w2
      t.block = { s.block with
        v := ⟨t1 + t2, s.v.w0, s.v.w1, s.v.w2, s.v.w3 + t1, s.v.w4, s.v.w5, s.v.w6⟩
        win := ⟨s.win.w1, s.win.w2, s.win.w3, s.win.w4, s.win.w5, s.win.w6, s.win.w7, s.win.w8, s.win.w9, s.win.w10,
          s.win.w11, s.win.w12, s.win.w13, s.win.w14, s.win.w15,
          smallSigma1 s.win.w14 + s.win.w9 + smallSigma0 s.win.w1 + s.win.w0⟩
        rnd := BitVec.ofNat 7 (s.rnd.toNat + 1), data := t.data } ∧
      ((∀ addr w, s.nextIn.req ≠ some (.write addr w)) → t.data = s.data)

/-- The feed-forward edge adds `v` to H and completes the compression by `pad`, whatever access is presented: a data block
stops the engine, the first padding block loads PadB from the new H, the last one finalizes and shows the digest
[42_block_compressor.md R126, 43_streaming_driver.md R144]. The value of `rnd` after a stop is not stated (log 4). -/
def Obligations.FeedForwardCompletesByPad : Prop :=
  ∀ s : State, s.eng = .compress → s.rnd = 64 → s.totalLen.toNat ≤ maxBytes →
    s.holdsRequest → s.nextIn.rst = false →
    ∃ t hn, step s = .next t ∧
      hn = ⟨s.h.w0 + s.v.w0, s.h.w1 + s.v.w1, s.h.w2 + s.v.w2, s.h.w3 + s.v.w3,
        s.h.w4 + s.v.w4, s.h.w5 + s.v.w5, s.h.w6 + s.v.w6, s.h.w7 + s.v.w7⟩ ∧
      (s.pad = .pNone → t.block = { s.block with h := hn, eng := .idle, rnd := t.rnd, data := t.data }) ∧
      (s.pad = .pFirst → t.block = { s.block with
        h := hn, v := hn, rnd := 0, pad := .pFinal, data := t.data
        win := parseBlock (zeros 56 ++ be64bytes (BitVec.ofNat 64 (8 * s.totalLen.toNat))) }) ∧
      (s.pad = .pFinal →
        t.block = { s.block with
          h := hn, eng := .idle, rnd := t.rnd, phase := .finalized, bufLen := 0, pad := .pNone, data := t.data } ∧
        ∀ i, t.digestWord i = hn.get i) ∧
      ((∀ addr w, s.nextIn.req ≠ some (.write addr w)) → t.data = s.data)

/-- A read or a DATA write at an edge with an engine step: the block's state after it is the one after the
engine's step alone, but for DATA, and a write to DATA changes no step of the engine [44_register_access.md R170, R162]. -/
def Obligations.AccessesDoNotDisturbTheEngine : Prop :=
  ∀ (s : State) (b : BitVec 2) (w : Word), s.EngineOk →
    ∃ t u, exec (.wrData b w) s = .next t ∧ idleEdge s = .next u ∧ t.block = { u.block with data := w } ∧
      idleEdge { s with data := w } = .next { u with data := w } ∧
      ∀ a : BitVec 6, ∃ r, exec (decodeAccess (.read a)) s = .next r ∧ r.block = u.block

/-- The pure schedule: the sixteen big-endian words of the block, then the recurrence [42_block_compressor.md R119, R120]. -/
def Obligations.ScheduleFollowsItsRecurrence : Prop :=
  ∀ b : List Byte,
    (∀ t < 16, scheduleWord b t = be32 b (4 * t)) ∧
    (∀ i, 16 ≤ i → scheduleWord b i =
      smallSigma1 (scheduleWord b (i - 2)) + scheduleWord b (i - 7) + smallSigma0 (scheduleWord b (i - 15)) +
        scheduleWord b (i - 16)) ∧
    schedule b = (List.range 64).map (scheduleWord b)

/-- After a load and `k` rounds, `rnd = k` and the window holds `W[k]` to `W[k+15]` [42_block_compressor.md R127].
That nothing more comes on the ports once their list of inputs has ended is log 5. -/
def Obligations.WindowHoldsTheSchedule : Prop :=
  ∀ (s : State) (b : List Byte) (k : Nat), s.eng = .compress → s.rnd = 0 → s.win = parseBlock b →
    s.inputs = [] → s.request = none → k ≤ 64 →
    ∃ t, steps k s = .next t ∧ t.rnd.toNat = k ∧ t.eng = .compress ∧
      ∀ j < 16, t.win.toList[j]? = some (scheduleWord b (k + j))

/-- From a load, 65 edges compute `compress`: BUSY before each of them, and H is then the pure function of the H before and
the block [42_block_compressor.md R130, R123].
That nothing more comes on the ports once their list of inputs has ended is log 5. -/
def Obligations.DatapathComputesCompress : Prop :=
  ∀ (s : State) (b : List Byte), s.eng = .compress → s.rnd = 0 → s.win = parseBlock b → s.v = s.h →
    s.totalLen.toNat ≤ maxBytes → s.inputs = [] → s.request = none →
    (∃ t, steps 65 s = .next t ∧ t.h = compress s.h b) ∧
    ∀ k < 65, ∃ u, steps k s = .next u ∧ u.busy = true ∧ u.h = s.h

/-- Each edge with BUSY = 1 and `rst = 0` uses up one of the busy edges to come, whatever access is presented; there are at
most 130 of them [70_reset_and_hazards.md R206, R208]. -/
def Obligations.BusyEdgesCountDown : Prop :=
  ∀ s : State, s.Inv →
    s.busyEdges ≤ 130 ∧ (0 < s.busyEdges ↔ s.busy = true) ∧
    ∀ t, s.busy = true → s.nextIn.rst = false → step s = .next t → t.busyEdges + 1 = s.busyEdges

/-- The busy edges after each command: none after NOP, INIT, an illegal word or a rejected command, 65 after an UPDATE that
completes a block or a FINAL with at most 55 buffered bytes, 130 after another FINAL [70_reset_and_hazards.md R208]. -/
def Obligations.CommandsStartTheirBusyEdges : Prop :=
  ∀ s : State, s.Inv → s.eng = .idle →
    (∃ t, exec .nop s = .next t ∧ t.busyEdges = 0) ∧
    (∃ t, exec .init s = .next t ∧ t.busyEdges = 0) ∧
    (∀ w, ∃ t, exec (.illegal w) s = .next t ∧ t.busyEdges = 0) ∧
    (∀ n, ∃ t, exec (.update n) s = .next t ∧
      t.busyEdges = (if s.phase = .finalized ∨ maxBytes < s.totalLen.toNat + n.val then 0
        else if 64 ≤ s.bufLen.toNat + n.val then 65 else 0)) ∧
    (∃ t, exec .final s = .next t ∧
      t.busyEdges = (if s.phase = .finalized then 0 else if s.bufLen.toNat ≤ 55 then 65 else 130))

/-- A held write of CMD is performed: while BUSY it stays presented, after at most 130 edges BUSY is 0, and the next edge
performs and acks it [44_register_access.md R160; 70_reset_and_hazards.md R206].
That the access stays presented once the list of inputs has ended is log 5. -/
def Obligations.HeldCommandIsPerformed : Prop :=
  ∀ (s : State) (addr : BitVec 6) (w : Word), s.Inv → s.eng = .compress → s.inputs = [] →
    s.request = some (.write addr w) → addr.extractLsb' 2 4 = 0 →
    ∃ k t r, k ≤ 130 ∧ steps k s = .next t ∧ t.eng = .idle ∧ t.request = some (.write addr w) ∧
      (∀ j < k, ∃ u, steps j s = .next u ∧ u.busy = true ∧ u.request = some (.write addr w)) ∧
      step t = .next r ∧ r.ack = true ∧ r.request = none ∧
      exec (decodeCmd w).toInstr t = .next r

/-! ### Register accesses -/

/-- Reads of CMD and of the reserved offsets return 0, are never held and have no effect [44_register_access.md R168]. -/
def Obligations.ReadsOfCmdAndReservedReturnZero : Prop :=
  ∀ (s : State) (b : BitVec 2), s.EngineOk →
    (∃ t, exec (.rdCmd b) s = .next t ∧ t.Acked s (some 0) ∧ t.OnlyEngine s) ∧
    (∃ t, exec (.rdReserved b) s = .next t ∧ t.Acked s (some 0) ∧ t.OnlyEngine s) ∧
    (∀ x, ∃ t, exec (.rdReservedHigh x b) s = .next t ∧ t.Acked s (some 0) ∧ t.OnlyEngine s)

/-- A DATA write is never held, replaces DATA and nothing else beside the engine's step; a read of DATA returns it, also
right after the write [44_register_access.md R162]. -/
def Obligations.DataIsWrittenAndReadBack : Prop :=
  ∀ (s : State) (b c : BitVec 2) (w : Word), s.EngineOk →
    (∃ t, exec (.rdData b) s = .next t ∧ t.Acked s (some s.data) ∧ t.OnlyEngine s) ∧
    (∃ t u, exec (.wrData b w) s = .next t ∧ t.Acked s none ∧
      engineEdge s = .ok u ∧ t.block = { u.block with data := w } ∧
      (s.eng = .idle → t.block = { s.block with data := w }) ∧
      ∃ r, exec (.rdData c) t = .next r ∧ r.rdata = some w)

/-- Reads of STATUS, LEN_LO and LEN_HI return the composed word and the two halves of the byte count from before the edge,
clear no flag and change nothing [44_register_access.md R163, R164]. -/
def Obligations.ReadsOfStatusAndLength : Prop :=
  ∀ (s : State) (b : BitVec 2), s.EngineOk →
    (∃ t, exec (.rdStatus b) s = .next t ∧ t.Acked s (some s.status) ∧ t.OnlyEngine s) ∧
    (∃ t, exec (.rdLenLo b) s = .next t ∧
      t.Acked s (some (BitVec.ofNat 32 (s.totalLen.toNat % 2 ^ 32))) ∧ t.OnlyEngine s) ∧
    (∃ t, exec (.rdLenHi b) s = .next t ∧
      t.Acked s (some (BitVec.ofNat 32 (s.totalLen.toNat / 2 ^ 32))) ∧ t.OnlyEngine s)

/-- A read of `DIGESTi` returns `H[i]` in phase FINALIZED and 0 in every other, with no flag [44_register_access.md R165]. -/
def Obligations.ReadsOfDigest : Prop :=
  ∀ (s : State) (i : BitVec 3) (b : BitVec 2), s.EngineOk →
    ∃ t, exec (.rdDigest i b) s = .next t ∧ t.OnlyEngine s ∧
      (s.phase = .finalized → t.Acked s (some (s.h.get i))) ∧
      (s.phase ≠ .finalized → t.Acked s (some 0))

/-- Writes to read-only and reserved offsets are performed at once, change no state and raise no error
[44_register_access.md R167]. -/
def Obligations.IgnoredWritesChangeNothing : Prop :=
  ∀ (s : State) (b : BitVec 2) (w : Word), s.EngineOk →
    (∀ x, ∃ t, exec (.wrIgnoredStatus x b w) s = .next t ∧ t.Acked s none ∧ t.OnlyEngine s) ∧
    (∀ x, ∃ t, exec (.wrIgnoredLen x b w) s = .next t ∧ t.Acked s none ∧ t.OnlyEngine s) ∧
    (∀ x, ∃ t, exec (.wrIgnoredDigest x b w) s = .next t ∧ t.Acked s none ∧ t.OnlyEngine s)

/-- The read data by address: the register index is `addr / 4`, so every offset reads the word it lies in, and each index
returns what `RegValue` gives it, from the state before the edge; a read changes no state [44_register_access.md R161]. -/
def Obligations.ReadDataByAddress : Prop :=
  ∀ (s : State) (addr : BitVec 6), s.EngineOk →
    ∃ t, exec (decodeAccess (.read addr)) s = .next t ∧ t.OnlyEngine s ∧
      (addr.toNat / 4 = 0 → t.rdata = some 0) ∧
      (addr.toNat / 4 = 1 → t.rdata = some s.data) ∧
      (addr.toNat / 4 = 2 → t.rdata = some s.status) ∧
      (addr.toNat / 4 = 4 → t.rdata = some (s.totalLen.extractLsb' 0 32)) ∧
      (addr.toNat / 4 = 5 → t.rdata = some (s.totalLen.extractLsb' 32 32)) ∧
      (addr.toNat / 4 = 3 ∨ addr.toNat / 4 = 6 ∨ addr.toNat / 4 = 7 → t.rdata = some 0) ∧
      (∀ i < 8, addr.toNat / 4 = 8 + i → t.rdata = some (s.digestWord (BitVec.ofNat 3 i)))

/-- STATUS is the composition of its fields, and a write to STATUS does at its edge what no access does
[10_state.md R32]. -/
def Obligations.StatusIsComposed : Prop :=
  ∀ s : State,
    s.status = (s.bufLen.setWidth 32 <<< 8) ||| ((if s.errCapacity then 1#32 else 0) <<< 6) |||
      ((if s.errMisuse then 1#32 else 0) <<< 5) ||| ((if s.errIllegal then 1#32 else 0) <<< 4) |||
      ((if s.phase = .finalized then 1#32 else 0) <<< 3) ||| (s.phase.code.setWidth 32 <<< 1) |||
      (if s.eng = .compress then 1#32 else 0) ∧
    (s.EngineOk → ∀ b w, ∃ t u, exec (.wrIgnoredStatus 0 b w) s = .next t ∧ t.Acked s none ∧
      idleEdge s = .next u ∧ t.block = u.block)

/-- Every state of a run shows a legal STATUS: FINALIZING only while BUSY, FRESH and FINALIZED only while idle, BUF_LEN at
most 63, and 0 in FINALIZED [10_state.md R32, R38, the spec's own inferences]. -/
def Obligations.StatusCombinationsNeverOccur : Prop :=
  ∀ s t : State, s.Inv → step s = .next t →
    ¬(t.phase = .finalizing ∧ t.busy = false) ∧ ¬(t.phase = .fresh ∧ t.busy = true) ∧
    ¬(t.phase = .finalized ∧ t.busy = true) ∧
    (t.status.extractLsb' 8 7).toNat ≤ 63 ∧ (t.phase = .finalized → t.status.extractLsb' 8 7 = 0)

/-- `digest_o` holds `DIGEST(i)` in bits `255 - 32i` down, byte `4i + j` of the digest is byte lane `j` of `H[i]` from the
top, and both outputs are 0 before FINALIZED [44_register_access.md R166]. -/
def Obligations.DigestIsFormattedBigEndian : Prop :=
  ∀ s : State,
    (∀ i < 8, s.digestOut.extractLsb' (224 - 32 * i) 32 = s.digestWord (BitVec.ofNat 3 i)) ∧
    (s.digestValidOut = true ↔ s.phase = .finalized) ∧
    (s.digestValidOut = false → s.digestOut = 0) ∧
    (s.phase = .finalized → ∀ i < 8, ∀ j < 4,
      s.h.bytes[4 * i + j]? = some ((s.h.get (BitVec.ofNat 3 i)).extractLsb' (24 - 8 * j) 8) ∧
      s.digestOut.extractLsb' (248 - 8 * (4 * i + j)) 8 =
        (s.h.get (BitVec.ofNat 3 i)).extractLsb' (24 - 8 * j) 8)

/-! ### The whole machine -/

/-- Every step keeps the invariant: canonical buffer, ranges of `buf_len`, `rnd` and the byte count, and what phase, engine and
pad allow together. -/
def Obligations.StepKeepsTheInvariant : Prop :=
  ∀ s t : State, s.Inv → step s = .next t → t.Inv

/-- From every state that meets the invariant a step goes on, unless the host withdrew its request: no access, command,
engine step or reset ends in a fault (logs 3 and 9), so no byte without a value is ever read [43_streaming_driver.md R151;
00_scope.md R18; 70_reset_and_hazards.md R206]. -/
def Obligations.RunsNeverFault : Prop :=
  ∀ s : State, s.Inv → s.holdsRequest → goesOn (step s)

/-- H is written only by INIT and by reset, which give it IV, and by the feed-forward step [10_state.md R20]. -/
def Obligations.HashWordsHaveThreeWriters : Prop :=
  ∀ s t : State, step s = .next t →
    (s.nextIn.rst = true ∨ s.performs .init → t.h = iv) ∧
    (t.h ≠ s.h → s.nextIn.rst = true ∨ s.performs .init ∨ (s.eng = .compress ∧ s.rnd = 64))

/-- The phase transitions, all of them [43_streaming_driver.md R146]. -/
def Obligations.PhaseTransitionsAreTheTable : Prop :=
  ∀ s t : State, s.Inv → step s = .next t →
    (s.nextIn.rst = true ∨ s.performs .init → t.phase = .fresh) ∧
    (∀ n, s.performs (.update n) → s.phase = .fresh → t.phase = .accumulating) ∧
    (s.performs .final → s.phase = .fresh ∨ s.phase = .accumulating → t.phase = .finalizing) ∧
    (s.nextIn.rst = false → s.eng = .compress → s.rnd = 64 → s.pad = .pFinal →
      s.phase = .finalizing ∧ t.phase = .finalized) ∧
    (t.phase ≠ s.phase →
      s.nextIn.rst = true ∨ s.performs .init ∨ ((∃ n, s.performs (.update n)) ∧ s.phase = .fresh) ∨
      (s.performs .final ∧ (s.phase = .fresh ∨ s.phase = .accumulating)) ∨
      (s.eng = .compress ∧ s.rnd = 64 ∧ s.pad = .pFinal))

/-- Each error flag is set only by its cause, stays set until INIT or reset, and is its STATUS bit [10_state.md R31]. -/
def Obligations.ErrorFlagsAreSticky : Prop :=
  ∀ s t : State, step s = .next t →
    (s.nextIn.rst = true ∨ s.performs .init →
      t.errIllegal = false ∧ t.errMisuse = false ∧ t.errCapacity = false) ∧
    (¬(s.nextIn.rst = true ∨ s.performs .init) →
      (t.errIllegal = true ↔ s.errIllegal = true ∨ ∃ w, s.performs (.illegal w)) ∧
      (t.errMisuse = true ↔ s.errMisuse = true ∨
        (s.phase = .finalized ∧ (s.performs .final ∨ ∃ n, s.performs (.update n)))) ∧
      (t.errCapacity = true ↔ s.errCapacity = true ∨
        (s.phase ≠ .finalized ∧ ∃ n, s.performs (.update n) ∧ maxBytes < s.totalLen.toNat + n.val))) ∧
    t.status.getLsbD 4 = t.errIllegal ∧ t.status.getLsbD 5 = t.errMisuse ∧ t.status.getLsbD 6 = t.errCapacity

/-- DATA is written only by a host write to it and by reset; no command writes it [10_state.md R30]. -/
def Obligations.DataHasTwoWriters : Prop :=
  ∀ s t : State, step s = .next t →
    (s.nextIn.rst = true → t.data = 0) ∧
    (s.nextIn.rst = false → ∀ a b w, s.nextIn.req = some a → decodeAccess a = .wrData b w → t.data = w) ∧
    (s.nextIn.rst = false → (¬∃ a b w, s.nextIn.req = some a ∧ decodeAccess a = .wrData b w) → t.data = s.data)

/-- The byte count: an accepted UPDATE adds its count, INIT and reset clear it, nothing else changes it, FINAL included; it
never passes MAX_BYTES; LEN_HI and LEN_LO are its halves [10_state.md R28, R33]. -/
def Obligations.ByteCountIsOfAcceptedUpdates : Prop :=
  ∀ s t : State, s.Inv → step s = .next t →
    (s.nextIn.rst = true ∨ s.performs .init → t.totalLen = 0) ∧
    (∀ n, s.performs (.update n) → s.phase ≠ .finalized → s.totalLen.toNat + n.val ≤ maxBytes →
      t.totalLen.toNat = s.totalLen.toNat + n.val) ∧
    (¬(s.nextIn.rst = true ∨ s.performs .init) →
      (¬∃ n, s.performs (.update n) ∧ s.phase ≠ .finalized ∧ s.totalLen.toNat + n.val ≤ maxBytes) →
      t.totalLen = s.totalLen) ∧
    t.totalLen.toNat ≤ 2 ^ 61 - 1 ∧ t.lenHi ++ t.lenLo = t.totalLen ∧ t.lenHi.toNat ≤ 0x1FFFFFFF

/-- Only UPDATE stores to the block buffer: every other instruction leaves every byte of it as it was
[10_state.md R26; 20_memory.md R50]. -/
def Obligations.OnlyUpdateStoresToTheBuffer : Prop :=
  ∀ (s t : State) (i : Instr), exec i s = .next t →
    (∀ n, i ≠ .update n) → (∀ b w n, i = .wrCmd b w → decodeCmd w ≠ .update n) →
    ∀ a, Memory.readByte t.buf a = Memory.readByte s.buf a

/-- Buffer bytes at or above `buf_len` never matter: two states that differ only there give, for every instruction, states
that differ only there [43_streaming_driver.md R151]. -/
def Obligations.StaleBytesNeverMatter : Prop :=
  ∀ (s t : State) (m : Memory) (i : Instr),
    (∀ k < s.bufLen.toNat, Memory.readByte m k = Memory.readByte s.buf k) → exec i s = .next t →
    ∃ m', exec i { s with buf := m } = .next { t with buf := m' } ∧
      ∀ k < t.bufLen.toNat, Memory.readByte m' k = Memory.readByte t.buf k

/-- A push of bytes onto a message absorbed so far: `buf_len`, the buffered bytes and the chaining value are those of the
longer message once the engine is idle [10_state.md R38].
That nothing more comes on the ports once their list of inputs has ended is log 5. -/
def Obligations.PushAbsorbsItsBytes : Prop :=
  ∀ (s : State) (message : List Byte) (p : Push), s.Inv → s.Quiet → s.Absorbed message →
    message.length + p.2.val ≤ maxBytes →
    ∃ t, pushOne p s = .next t ∧ t.Inv ∧ t.Quiet ∧ t.Absorbed (message ++ p.bytes)

/-- FINAL on an absorbed message ends FINALIZED with H the SHA-256 of the message, `buf_len` 0, the count kept, and the eight
digest reads return its words [10_state.md R38; 43_streaming_driver.md R144, R149].
That nothing more comes on the ports once their list of inputs has ended is log 5. -/
def Obligations.FinishGivesTheDigest : Prop :=
  ∀ (s : State) (message : List Byte), s.Inv → s.Quiet → s.Absorbed message →
    ∃ t, finish s = .next t ∧ t.Inv ∧ t.Quiet ∧ t.phase = .finalized ∧ t.bufLen = 0 ∧ t.totalLen = s.totalLen ∧
      t.h = sha256 message ∧
      ∀ i b, ∃ r, exec (.rdDigest i b) t = .next r ∧ r.rdata = some ((sha256 message).get i)

/-- From any idle state of a run: INIT, then any pushes of at most MAX_BYTES bytes in all, then FINAL, give the SHA-256 of
the bytes pushed, however they were split [00_scope.md R17; 43_streaming_driver.md R148].
That nothing more comes on the ports once their list of inputs has ended is log 5. -/
def Obligations.DigestDependsOnlyOnTheBytes : Prop :=
  ∀ (s : State) (pushes : List Push), s.Inv → s.Quiet → (pushes.flatMap Push.bytes).length ≤ maxBytes →
    ∃ t, andThen (exec .init s) (fun s1 => andThen (pushAll pushes s1) finish) = .next t ∧
      t.phase = .finalized ∧ t.h = sha256 (pushes.flatMap Push.bytes)

/-! ### Functions of the spec -/

/-- The rotation by bits, and the choice and majority functions by their formulas and bit by bit
[42_block_compressor.md R110, R115, R116]. -/
def Obligations.BitFunctionsAreBitwise : Prop :=
  (∀ (x : Word) (n i : Nat), 1 ≤ n → n ≤ 31 → i < 32 →
    (rotr x n).getLsbD i = x.getLsbD ((i + n) % 32)) ∧
  (∀ x y z : Word, ch x y z = (x &&& y) ^^^ (~~~x &&& z) ∧ maj x y z = (x &&& y) ^^^ (x &&& z) ^^^ (y &&& z)) ∧
  (∀ (x y z : Word) (i : Nat), i < 32 →
    (ch x y z).getLsbD i = (if x.getLsbD i then y.getLsbD i else z.getLsbD i) ∧
    (maj x y z).getLsbD i = ((x.getLsbD i && y.getLsbD i) || (x.getLsbD i && z.getLsbD i) ||
      (y.getLsbD i && z.getLsbD i)))

/-- Packing a group of at most four message bytes as R56 says, and taking them back as UPDATE's operand, gives the group
[20_memory.md R55, R56; 30_encoding.md R78]. -/
def Obligations.PackedBytesAreTheOperand : Prop :=
  ∀ (g : List Byte) (h : g.length < 5), operandBytes (packBytes g) ⟨g.length, h⟩ = g

/-- The pushes of `HASH s` append the bytes of `s` in order [30_encoding.md R80; 20_memory.md R56]. -/
def Obligations.HashPushesTheMessage : Prop :=
  ∀ message : List Byte,
    ((messagePushes message).flatMap fun p => operandBytes p.2 p.1) = message
end

