-- ==== Sys2Proof/Laws/State.lean ====
section
/-! SUPPORT. One lemma per field per update of the state, each true by rfl. -/

namespace Sys2Proof.Machine

/-! ### acked -/

@[simp] theorem acked_h (value : Option Word) (s : State) : (acked value s).h = s.h := rfl
@[simp] theorem acked_v (value : Option Word) (s : State) : (acked value s).v = s.v := rfl
@[simp] theorem acked_win (value : Option Word) (s : State) : (acked value s).win = s.win := rfl
@[simp] theorem acked_eng (value : Option Word) (s : State) : (acked value s).eng = s.eng := rfl
@[simp] theorem acked_rnd (value : Option Word) (s : State) : (acked value s).rnd = s.rnd := rfl
@[simp] theorem acked_pad (value : Option Word) (s : State) : (acked value s).pad = s.pad := rfl
@[simp] theorem acked_buf (value : Option Word) (s : State) : (acked value s).buf = s.buf := rfl
@[simp] theorem acked_bufLen (value : Option Word) (s : State) : (acked value s).bufLen = s.bufLen := rfl
@[simp] theorem acked_totalLen (value : Option Word) (s : State) : (acked value s).totalLen = s.totalLen := rfl
@[simp] theorem acked_phase (value : Option Word) (s : State) : (acked value s).phase = s.phase := rfl
@[simp] theorem acked_data (value : Option Word) (s : State) : (acked value s).data = s.data := rfl
@[simp] theorem acked_errIllegal (value : Option Word) (s : State) : (acked value s).errIllegal = s.errIllegal := rfl
@[simp] theorem acked_errMisuse (value : Option Word) (s : State) : (acked value s).errMisuse = s.errMisuse := rfl
@[simp] theorem acked_errCapacity (value : Option Word) (s : State) : (acked value s).errCapacity = s.errCapacity := rfl
@[simp] theorem acked_inputs (value : Option Word) (s : State) : (acked value s).inputs = s.inputs := rfl
@[simp] theorem acked_request (value : Option Word) (s : State) : (acked value s).request = none := rfl
@[simp] theorem acked_ack (value : Option Word) (s : State) : (acked value s).ack = true := rfl
@[simp] theorem acked_rdata (value : Option Word) (s : State) : (acked value s).rdata = value := rfl

/-! ### notAcked -/

@[simp] theorem notAcked_h (s : State) : (notAcked s).h = s.h := rfl
@[simp] theorem notAcked_v (s : State) : (notAcked s).v = s.v := rfl
@[simp] theorem notAcked_win (s : State) : (notAcked s).win = s.win := rfl
@[simp] theorem notAcked_eng (s : State) : (notAcked s).eng = s.eng := rfl
@[simp] theorem notAcked_rnd (s : State) : (notAcked s).rnd = s.rnd := rfl
@[simp] theorem notAcked_pad (s : State) : (notAcked s).pad = s.pad := rfl
@[simp] theorem notAcked_buf (s : State) : (notAcked s).buf = s.buf := rfl
@[simp] theorem notAcked_bufLen (s : State) : (notAcked s).bufLen = s.bufLen := rfl
@[simp] theorem notAcked_totalLen (s : State) : (notAcked s).totalLen = s.totalLen := rfl
@[simp] theorem notAcked_phase (s : State) : (notAcked s).phase = s.phase := rfl
@[simp] theorem notAcked_data (s : State) : (notAcked s).data = s.data := rfl
@[simp] theorem notAcked_errIllegal (s : State) : (notAcked s).errIllegal = s.errIllegal := rfl
@[simp] theorem notAcked_errMisuse (s : State) : (notAcked s).errMisuse = s.errMisuse := rfl
@[simp] theorem notAcked_errCapacity (s : State) : (notAcked s).errCapacity = s.errCapacity := rfl
@[simp] theorem notAcked_inputs (s : State) : (notAcked s).inputs = s.inputs := rfl
@[simp] theorem notAcked_request (s : State) : (notAcked s).request = s.request := rfl
@[simp] theorem notAcked_ack (s : State) : (notAcked s).ack = false := rfl
@[simp] theorem notAcked_rdata (s : State) : (notAcked s).rdata = none := rfl

/-! ### setData -/

@[simp] theorem setData_h (w : Word) (s : State) : (setData w s).h = s.h := rfl
@[simp] theorem setData_v (w : Word) (s : State) : (setData w s).v = s.v := rfl
@[simp] theorem setData_win (w : Word) (s : State) : (setData w s).win = s.win := rfl
@[simp] theorem setData_eng (w : Word) (s : State) : (setData w s).eng = s.eng := rfl
@[simp] theorem setData_rnd (w : Word) (s : State) : (setData w s).rnd = s.rnd := rfl
@[simp] theorem setData_pad (w : Word) (s : State) : (setData w s).pad = s.pad := rfl
@[simp] theorem setData_buf (w : Word) (s : State) : (setData w s).buf = s.buf := rfl
@[simp] theorem setData_bufLen (w : Word) (s : State) : (setData w s).bufLen = s.bufLen := rfl
@[simp] theorem setData_totalLen (w : Word) (s : State) : (setData w s).totalLen = s.totalLen := rfl
@[simp] theorem setData_phase (w : Word) (s : State) : (setData w s).phase = s.phase := rfl
@[simp] theorem setData_data (w : Word) (s : State) : (setData w s).data = w := rfl
@[simp] theorem setData_errIllegal (w : Word) (s : State) : (setData w s).errIllegal = s.errIllegal := rfl
@[simp] theorem setData_errMisuse (w : Word) (s : State) : (setData w s).errMisuse = s.errMisuse := rfl
@[simp] theorem setData_errCapacity (w : Word) (s : State) : (setData w s).errCapacity = s.errCapacity := rfl
@[simp] theorem setData_inputs (w : Word) (s : State) : (setData w s).inputs = s.inputs := rfl
@[simp] theorem setData_request (w : Word) (s : State) : (setData w s).request = s.request := rfl
@[simp] theorem setData_ack (w : Word) (s : State) : (setData w s).ack = s.ack := rfl
@[simp] theorem setData_rdata (w : Word) (s : State) : (setData w s).rdata = s.rdata := rfl

/-! ### load -/

@[simp] theorem load_h (b : List Byte) (p : PadState) (hcur : Words8) (s : State) : (load b p hcur s).h = s.h := rfl
@[simp] theorem load_v (b : List Byte) (p : PadState) (hcur : Words8) (s : State) : (load b p hcur s).v = hcur := rfl
@[simp] theorem load_win (b : List Byte) (p : PadState) (hcur : Words8) (s : State) : (load b p hcur s).win = parseBlock b := rfl
@[simp] theorem load_eng (b : List Byte) (p : PadState) (hcur : Words8) (s : State) : (load b p hcur s).eng = .compress := rfl
@[simp] theorem load_rnd (b : List Byte) (p : PadState) (hcur : Words8) (s : State) : (load b p hcur s).rnd = 0 := rfl
@[simp] theorem load_pad (b : List Byte) (p : PadState) (hcur : Words8) (s : State) : (load b p hcur s).pad = p := rfl
@[simp] theorem load_buf (b : List Byte) (p : PadState) (hcur : Words8) (s : State) : (load b p hcur s).buf = s.buf := rfl
@[simp] theorem load_bufLen (b : List Byte) (p : PadState) (hcur : Words8) (s : State) : (load b p hcur s).bufLen = s.bufLen := rfl
@[simp] theorem load_totalLen (b : List Byte) (p : PadState) (hcur : Words8) (s : State) : (load b p hcur s).totalLen = s.totalLen := rfl
@[simp] theorem load_phase (b : List Byte) (p : PadState) (hcur : Words8) (s : State) : (load b p hcur s).phase = s.phase := rfl
@[simp] theorem load_data (b : List Byte) (p : PadState) (hcur : Words8) (s : State) : (load b p hcur s).data = s.data := rfl
@[simp] theorem load_errIllegal (b : List Byte) (p : PadState) (hcur : Words8) (s : State) : (load b p hcur s).errIllegal = s.errIllegal := rfl
@[simp] theorem load_errMisuse (b : List Byte) (p : PadState) (hcur : Words8) (s : State) : (load b p hcur s).errMisuse = s.errMisuse := rfl
@[simp] theorem load_errCapacity (b : List Byte) (p : PadState) (hcur : Words8) (s : State) : (load b p hcur s).errCapacity = s.errCapacity := rfl
@[simp] theorem load_inputs (b : List Byte) (p : PadState) (hcur : Words8) (s : State) : (load b p hcur s).inputs = s.inputs := rfl
@[simp] theorem load_request (b : List Byte) (p : PadState) (hcur : Words8) (s : State) : (load b p hcur s).request = s.request := rfl
@[simp] theorem load_ack (b : List Byte) (p : PadState) (hcur : Words8) (s : State) : (load b p hcur s).ack = s.ack := rfl
@[simp] theorem load_rdata (b : List Byte) (p : PadState) (hcur : Words8) (s : State) : (load b p hcur s).rdata = s.rdata := rfl

/-! ### roundStep -/

@[simp] theorem roundStep_h (s : State) : (roundStep s).h = s.h := rfl
@[simp] theorem roundStep_v (s : State) : (roundStep s).v = roundFn (rom (s.rnd.extractLsb' 0 6)) s.win.w0 s.v := rfl
@[simp] theorem roundStep_win (s : State) : (roundStep s).win = shiftWindow s.win := rfl
@[simp] theorem roundStep_eng (s : State) : (roundStep s).eng = s.eng := rfl
@[simp] theorem roundStep_rnd (s : State) : (roundStep s).rnd = s.rnd + 1 := rfl
@[simp] theorem roundStep_pad (s : State) : (roundStep s).pad = s.pad := rfl
@[simp] theorem roundStep_buf (s : State) : (roundStep s).buf = s.buf := rfl
@[simp] theorem roundStep_bufLen (s : State) : (roundStep s).bufLen = s.bufLen := rfl
@[simp] theorem roundStep_totalLen (s : State) : (roundStep s).totalLen = s.totalLen := rfl
@[simp] theorem roundStep_phase (s : State) : (roundStep s).phase = s.phase := rfl
@[simp] theorem roundStep_data (s : State) : (roundStep s).data = s.data := rfl
@[simp] theorem roundStep_errIllegal (s : State) : (roundStep s).errIllegal = s.errIllegal := rfl
@[simp] theorem roundStep_errMisuse (s : State) : (roundStep s).errMisuse = s.errMisuse := rfl
@[simp] theorem roundStep_errCapacity (s : State) : (roundStep s).errCapacity = s.errCapacity := rfl
@[simp] theorem roundStep_inputs (s : State) : (roundStep s).inputs = s.inputs := rfl
@[simp] theorem roundStep_request (s : State) : (roundStep s).request = s.request := rfl
@[simp] theorem roundStep_ack (s : State) : (roundStep s).ack = s.ack := rfl
@[simp] theorem roundStep_rdata (s : State) : (roundStep s).rdata = s.rdata := rfl

/-! ### stopEngine -/

@[simp] theorem stopEngine_h (s : State) : (stopEngine s).h = s.h := rfl
@[simp] theorem stopEngine_v (s : State) : (stopEngine s).v = s.v := rfl
@[simp] theorem stopEngine_win (s : State) : (stopEngine s).win = s.win := rfl
@[simp] theorem stopEngine_eng (s : State) : (stopEngine s).eng = .idle := rfl
@[simp] theorem stopEngine_rnd (s : State) : (stopEngine s).rnd = 0 := rfl
@[simp] theorem stopEngine_pad (s : State) : (stopEngine s).pad = s.pad := rfl
@[simp] theorem stopEngine_buf (s : State) : (stopEngine s).buf = s.buf := rfl
@[simp] theorem stopEngine_bufLen (s : State) : (stopEngine s).bufLen = s.bufLen := rfl
@[simp] theorem stopEngine_totalLen (s : State) : (stopEngine s).totalLen = s.totalLen := rfl
@[simp] theorem stopEngine_phase (s : State) : (stopEngine s).phase = s.phase := rfl
@[simp] theorem stopEngine_data (s : State) : (stopEngine s).data = s.data := rfl
@[simp] theorem stopEngine_errIllegal (s : State) : (stopEngine s).errIllegal = s.errIllegal := rfl
@[simp] theorem stopEngine_errMisuse (s : State) : (stopEngine s).errMisuse = s.errMisuse := rfl
@[simp] theorem stopEngine_errCapacity (s : State) : (stopEngine s).errCapacity = s.errCapacity := rfl
@[simp] theorem stopEngine_inputs (s : State) : (stopEngine s).inputs = s.inputs := rfl
@[simp] theorem stopEngine_request (s : State) : (stopEngine s).request = s.request := rfl
@[simp] theorem stopEngine_ack (s : State) : (stopEngine s).ack = s.ack := rfl
@[simp] theorem stopEngine_rdata (s : State) : (stopEngine s).rdata = s.rdata := rfl

/-! ### present -/

@[simp] theorem State.present_h (s : State) (p : PortIn) : (s.present p).h = s.h := rfl
@[simp] theorem State.present_v (s : State) (p : PortIn) : (s.present p).v = s.v := rfl
@[simp] theorem State.present_win (s : State) (p : PortIn) : (s.present p).win = s.win := rfl
@[simp] theorem State.present_eng (s : State) (p : PortIn) : (s.present p).eng = s.eng := rfl
@[simp] theorem State.present_rnd (s : State) (p : PortIn) : (s.present p).rnd = s.rnd := rfl
@[simp] theorem State.present_pad (s : State) (p : PortIn) : (s.present p).pad = s.pad := rfl
@[simp] theorem State.present_buf (s : State) (p : PortIn) : (s.present p).buf = s.buf := rfl
@[simp] theorem State.present_bufLen (s : State) (p : PortIn) : (s.present p).bufLen = s.bufLen := rfl
@[simp] theorem State.present_totalLen (s : State) (p : PortIn) : (s.present p).totalLen = s.totalLen := rfl
@[simp] theorem State.present_phase (s : State) (p : PortIn) : (s.present p).phase = s.phase := rfl
@[simp] theorem State.present_data (s : State) (p : PortIn) : (s.present p).data = s.data := rfl
@[simp] theorem State.present_errIllegal (s : State) (p : PortIn) : (s.present p).errIllegal = s.errIllegal := rfl
@[simp] theorem State.present_errMisuse (s : State) (p : PortIn) : (s.present p).errMisuse = s.errMisuse := rfl
@[simp] theorem State.present_errCapacity (s : State) (p : PortIn) : (s.present p).errCapacity = s.errCapacity := rfl
@[simp] theorem State.present_inputs (s : State) (p : PortIn) : (s.present p).inputs = s.inputs.tail := rfl
@[simp] theorem State.present_request (s : State) (p : PortIn) : (s.present p).request = p.req := rfl
@[simp] theorem State.present_ack (s : State) (p : PortIn) : (s.present p).ack = s.ack := rfl
@[simp] theorem State.present_rdata (s : State) (p : PortIn) : (s.present p).rdata = s.rdata := rfl

/-! ### withAccess -/

@[simp] theorem State.withAccess_h (s : State) (a : HostAccess) : (s.withAccess a).h = s.h := rfl
@[simp] theorem State.withAccess_v (s : State) (a : HostAccess) : (s.withAccess a).v = s.v := rfl
@[simp] theorem State.withAccess_win (s : State) (a : HostAccess) : (s.withAccess a).win = s.win := rfl
@[simp] theorem State.withAccess_eng (s : State) (a : HostAccess) : (s.withAccess a).eng = s.eng := rfl
@[simp] theorem State.withAccess_rnd (s : State) (a : HostAccess) : (s.withAccess a).rnd = s.rnd := rfl
@[simp] theorem State.withAccess_pad (s : State) (a : HostAccess) : (s.withAccess a).pad = s.pad := rfl
@[simp] theorem State.withAccess_buf (s : State) (a : HostAccess) : (s.withAccess a).buf = s.buf := rfl
@[simp] theorem State.withAccess_bufLen (s : State) (a : HostAccess) : (s.withAccess a).bufLen = s.bufLen := rfl
@[simp] theorem State.withAccess_totalLen (s : State) (a : HostAccess) : (s.withAccess a).totalLen = s.totalLen := rfl
@[simp] theorem State.withAccess_phase (s : State) (a : HostAccess) : (s.withAccess a).phase = s.phase := rfl
@[simp] theorem State.withAccess_data (s : State) (a : HostAccess) : (s.withAccess a).data = s.data := rfl
@[simp] theorem State.withAccess_errIllegal (s : State) (a : HostAccess) : (s.withAccess a).errIllegal = s.errIllegal := rfl
@[simp] theorem State.withAccess_errMisuse (s : State) (a : HostAccess) : (s.withAccess a).errMisuse = s.errMisuse := rfl
@[simp] theorem State.withAccess_errCapacity (s : State) (a : HostAccess) : (s.withAccess a).errCapacity = s.errCapacity := rfl
@[simp] theorem State.withAccess_inputs (s : State) (a : HostAccess) : (s.withAccess a).inputs = PortIn.presents a :: s.inputs := rfl
@[simp] theorem State.withAccess_request (s : State) (a : HostAccess) : (s.withAccess a).request = none := rfl
@[simp] theorem State.withAccess_ack (s : State) (a : HostAccess) : (s.withAccess a).ack = s.ack := rfl
@[simp] theorem State.withAccess_rdata (s : State) (a : HostAccess) : (s.withAccess a).rdata = s.rdata := rfl

/-! ### block -/

@[simp] theorem State.block_h (s : State) : (s.block).h = s.h := rfl
@[simp] theorem State.block_v (s : State) : (s.block).v = s.v := rfl
@[simp] theorem State.block_win (s : State) : (s.block).win = s.win := rfl
@[simp] theorem State.block_eng (s : State) : (s.block).eng = s.eng := rfl
@[simp] theorem State.block_rnd (s : State) : (s.block).rnd = s.rnd := rfl
@[simp] theorem State.block_pad (s : State) : (s.block).pad = s.pad := rfl
@[simp] theorem State.block_buf (s : State) : (s.block).buf = s.buf := rfl
@[simp] theorem State.block_bufLen (s : State) : (s.block).bufLen = s.bufLen := rfl
@[simp] theorem State.block_totalLen (s : State) : (s.block).totalLen = s.totalLen := rfl
@[simp] theorem State.block_phase (s : State) : (s.block).phase = s.phase := rfl
@[simp] theorem State.block_data (s : State) : (s.block).data = s.data := rfl
@[simp] theorem State.block_errIllegal (s : State) : (s.block).errIllegal = s.errIllegal := rfl
@[simp] theorem State.block_errMisuse (s : State) : (s.block).errMisuse = s.errMisuse := rfl
@[simp] theorem State.block_errCapacity (s : State) : (s.block).errCapacity = s.errCapacity := rfl
@[simp] theorem State.block_inputs (s : State) : (s.block).inputs = [] := rfl
@[simp] theorem State.block_request (s : State) : (s.block).request = none := rfl
@[simp] theorem State.block_ack (s : State) : (s.block).ack = false := rfl
@[simp] theorem State.block_rdata (s : State) : (s.block).rdata = none := rfl

/-! ### resetEdge -/

@[simp] theorem resetEdge_h (s : State) : (resetEdge s).h = iv := rfl
@[simp] theorem resetEdge_v (s : State) : (resetEdge s).v = Words8.zero := rfl
@[simp] theorem resetEdge_win (s : State) : (resetEdge s).win = Words16.zero := rfl
@[simp] theorem resetEdge_eng (s : State) : (resetEdge s).eng = .idle := rfl
@[simp] theorem resetEdge_rnd (s : State) : (resetEdge s).rnd = 0 := rfl
@[simp] theorem resetEdge_pad (s : State) : (resetEdge s).pad = .pNone := rfl
@[simp] theorem resetEdge_buf (s : State) : (resetEdge s).buf = [] := rfl
@[simp] theorem resetEdge_bufLen (s : State) : (resetEdge s).bufLen = 0 := rfl
@[simp] theorem resetEdge_totalLen (s : State) : (resetEdge s).totalLen = 0 := rfl
@[simp] theorem resetEdge_phase (s : State) : (resetEdge s).phase = .fresh := rfl
@[simp] theorem resetEdge_data (s : State) : (resetEdge s).data = 0 := rfl
@[simp] theorem resetEdge_errIllegal (s : State) : (resetEdge s).errIllegal = false := rfl
@[simp] theorem resetEdge_errMisuse (s : State) : (resetEdge s).errMisuse = false := rfl
@[simp] theorem resetEdge_errCapacity (s : State) : (resetEdge s).errCapacity = false := rfl
@[simp] theorem resetEdge_inputs (s : State) : (resetEdge s).inputs = s.inputs := rfl
@[simp] theorem resetEdge_request (s : State) : (resetEdge s).request = s.request := rfl
@[simp] theorem resetEdge_ack (s : State) : (resetEdge s).ack = false := rfl
@[simp] theorem resetEdge_rdata (s : State) : (resetEdge s).rdata = none := rfl

/-! ### raise -/

@[simp] theorem raise_h (e : Err) (s : State) : (raise e s).h = s.h := by cases e <;> rfl
@[simp] theorem raise_v (e : Err) (s : State) : (raise e s).v = s.v := by cases e <;> rfl
@[simp] theorem raise_win (e : Err) (s : State) : (raise e s).win = s.win := by cases e <;> rfl
@[simp] theorem raise_eng (e : Err) (s : State) : (raise e s).eng = s.eng := by cases e <;> rfl
@[simp] theorem raise_rnd (e : Err) (s : State) : (raise e s).rnd = s.rnd := by cases e <;> rfl
@[simp] theorem raise_pad (e : Err) (s : State) : (raise e s).pad = s.pad := by cases e <;> rfl
@[simp] theorem raise_buf (e : Err) (s : State) : (raise e s).buf = s.buf := by cases e <;> rfl
@[simp] theorem raise_bufLen (e : Err) (s : State) : (raise e s).bufLen = s.bufLen := by cases e <;> rfl
@[simp] theorem raise_totalLen (e : Err) (s : State) : (raise e s).totalLen = s.totalLen := by cases e <;> rfl
@[simp] theorem raise_phase (e : Err) (s : State) : (raise e s).phase = s.phase := by cases e <;> rfl
@[simp] theorem raise_data (e : Err) (s : State) : (raise e s).data = s.data := by cases e <;> rfl
@[simp] theorem raise_errIllegal (e : Err) (s : State) : (raise e s).errIllegal = (s.errIllegal || e == .illegal) := by
  cases e <;> simp [raise]
@[simp] theorem raise_errMisuse (e : Err) (s : State) : (raise e s).errMisuse = (s.errMisuse || e == .misuse) := by
  cases e <;> simp [raise]
@[simp] theorem raise_errCapacity (e : Err) (s : State) : (raise e s).errCapacity = (s.errCapacity || e == .capacity) := by
  cases e <;> simp [raise]
@[simp] theorem raise_inputs (e : Err) (s : State) : (raise e s).inputs = s.inputs := by cases e <;> rfl
@[simp] theorem raise_request (e : Err) (s : State) : (raise e s).request = s.request := by cases e <;> rfl
@[simp] theorem raise_ack (e : Err) (s : State) : (raise e s).ack = s.ack := by cases e <;> rfl
@[simp] theorem raise_rdata (e : Err) (s : State) : (raise e s).rdata = s.rdata := by cases e <;> rfl

/-! ### The block's own state -/

@[simp] theorem block_acked (value : Option Word) (s : State) : (acked value s).block = s.block := rfl
@[simp] theorem block_notAcked (s : State) : (notAcked s).block = s.block := rfl
@[simp] theorem block_present (s : State) (p : PortIn) : (s.present p).block = s.block := rfl

/-- Two states with the same block agree in each of its fields. -/
theorem State.ext_block {s t : State} (h : s.block = t.block) :
    s.h = t.h ∧ s.v = t.v ∧ s.win = t.win ∧ s.eng = t.eng ∧ s.rnd = t.rnd ∧ s.pad = t.pad ∧ s.buf = t.buf ∧
      s.bufLen = t.bufLen ∧ s.totalLen = t.totalLen ∧ s.phase = t.phase ∧ s.data = t.data ∧
      s.errIllegal = t.errIllegal ∧ s.errMisuse = t.errMisuse ∧ s.errCapacity = t.errCapacity := by
  cases s; cases t; simp_all [State.block]

/-- The port fields after an edge that acked. -/
theorem acked_Acked {s s' : State} (value : Option Word) (h : s'.inputs = s.inputs) :
    (acked value s').Acked s value := ⟨rfl, rfl, rfl, h⟩

end Sys2Proof.Machine
end

