-- ==== Sys2Proof/Laws/Memory.lean ====
section
/-! SUPPORT. The block buffer: a write is read back and leaves every other byte, every write keeps the canonical form, a run is read as its bytes. -/

namespace Sys2Proof.Machine

/-! ### Read after write -/

theorem Memory.readByte_writeByte_same (m : Memory) (a : Nat) (b : Byte) :
    Memory.readByte (m.writeByte a b) a = some b := by
  induction m with
  | nil => simp [Memory.writeByte, Memory.readByte]
  | cons c m ih =>
    unfold Memory.writeByte
    split
    · simp [Memory.readByte]
    · split
      · simp [Memory.readByte]
      · rename_i h1 h2
        have : ¬ c.1 = a := fun h => h2 h.symm
        simp [Memory.readByte, this, ih]

theorem Memory.readByte_writeByte_other (m : Memory) (a a' : Nat) (b : Byte) (h : a' ≠ a) :
    Memory.readByte (m.writeByte a b) a' = Memory.readByte m a' := by
  have ha : a ≠ a' := fun h' => h h'.symm
  induction m with
  | nil => simp [Memory.writeByte, Memory.readByte, ha]
  | cons c m ih =>
    unfold Memory.writeByte
    split
    · simp [Memory.readByte, ha]
    · split
      · rename_i h1 h2
        subst h2
        simp [Memory.readByte, ha]
      · simp [Memory.readByte, ih]

/-- A run written is read back at each of its addresses. -/
theorem Memory.readByte_writeRun_inside (bs : List Byte) :
    ∀ (m : Memory) (a i : Nat), i < bs.length →
      Memory.readByte (m.writeRun a bs) (a + i) = bs[i]? := by
  induction bs with
  | nil => intro m a i h; simp at h
  | cons b bs ih =>
    intro m a i h
    cases i with
    | zero =>
      have out : ∀ (l : List Byte) (m : Memory) (k : Nat), a < k →
          Memory.readByte (m.writeRun k l) a = Memory.readByte m a := by
        intro l
        induction l with
        | nil => intro m k _; rfl
        | cons x l ihl =>
          intro m k hk
          rw [Memory.writeRun, ihl _ _ (by omega), Memory.readByte_writeByte_other _ _ _ _ (by omega)]
      simp [Memory.writeRun, out _ _ _ (Nat.lt_succ_self a), Memory.readByte_writeByte_same]
    | succ i =>
      have := ih (m.writeByte a b) (a + 1) i (by simpa using h)
      simpa [Memory.writeRun, Nat.add_assoc, Nat.add_comm 1 i] using this

/-- A run written leaves every address outside it. -/
theorem Memory.readByte_writeRun_outside (bs : List Byte) :
    ∀ (m : Memory) (a k : Nat), k < a ∨ a + bs.length ≤ k →
      Memory.readByte (m.writeRun a bs) k = Memory.readByte m k := by
  induction bs with
  | nil => intro m a k _; rfl
  | cons b bs ih =>
    intro m a k h
    simp only [List.length_cons] at h
    rw [Memory.writeRun, ih _ _ _ (by omega), Memory.readByte_writeByte_other _ _ _ _ (by omega)]

/-! ### The canonical form -/

theorem Memory.mem_writeByte (m : Memory) (a : Nat) (b : Byte) (c : Host.Cell) (h : c ∈ m.writeByte a b) :
    c = (a, b) ∨ c ∈ m := by
  induction m with
  | nil => simpa [Memory.writeByte] using h
  | cons d m ih =>
    unfold Memory.writeByte at h
    split at h
    · simpa using h
    · split at h
      · simp only [List.mem_cons] at h ⊢
        exact h.imp id Or.inr
      · simp only [List.mem_cons] at h ⊢
        rcases h with h | h
        · exact .inr (.inl h)
        · exact (ih h).imp id Or.inr

/-- Writing a byte inside the buffer keeps the canonical form. -/
theorem Memory.wf_writeByte (m : Memory) (a : Nat) (b : Byte) (hm : m.wf) (ha : a < 64) :
    (m.writeByte a b).wf := by
  refine ⟨?_, ?_⟩
  · induction m with
    | nil => simp [Memory.writeByte]
    | cons c m ih =>
      obtain ⟨hp, hb⟩ := hm
      rw [List.pairwise_cons] at hp
      unfold Memory.writeByte
      split
      · rename_i h
        refine List.pairwise_cons.2 ⟨?_, List.pairwise_cons.2 hp⟩
        intro d hd
        rcases List.mem_cons.1 hd with rfl | hd
        · exact h
        · exact Nat.lt_trans h (hp.1 d hd)
      · split
        · rename_i h1 h2
          refine List.pairwise_cons.2 ⟨?_, hp.2⟩
          intro d hd
          simpa [h2] using hp.1 d hd
        · rename_i h1 h2
          refine List.pairwise_cons.2 ⟨?_, ih ⟨hp.2, fun d hd => hb d (List.mem_cons_of_mem _ hd)⟩⟩
          intro d hd
          rcases Memory.mem_writeByte m a b d hd with rfl | hd
          · show c.1 < a
            omega
          · exact hp.1 d hd
  · intro c hc
    rcases Memory.mem_writeByte m a b c hc with rfl | hc
    · exact ha
    · exact hm.2 c hc

/-- Writing a run inside the buffer keeps the canonical form. -/
theorem Memory.wf_writeRun (bs : List Byte) :
    ∀ (m : Memory) (a : Nat), m.wf → a + bs.length ≤ 64 → (m.writeRun a bs).wf := by
  induction bs with
  | nil => intro m a h _; exact h
  | cons b bs ih =>
    intro m a h hl
    simp only [List.length_cons] at hl
    exact ih _ _ (Memory.wf_writeByte m a b h (by omega)) (by omega)

/-! ### Reading runs -/

/-- A run is read exactly when each of its bytes has a value. -/
theorem Memory.readRun_isSome (m : Memory) :
    ∀ (n a : Nat), (∀ k < n, (m.readByte (a + k)).isSome = true) → ∃ bs, m.readRun a n = some bs := by
  intro n
  induction n with
  | zero => intro a _; exact ⟨[], rfl⟩
  | succ n ih =>
    intro a h
    obtain ⟨b, hb⟩ := Option.isSome_iff_exists.1 (h 0 (by omega))
    obtain ⟨bs, hbs⟩ := ih (a + 1) (fun k hk => by
      have := h (k + 1) (by omega)
      rwa [Nat.add_comm k 1, ← Nat.add_assoc] at this)
    exact ⟨b :: bs, by simp only [Nat.add_zero] at hb; simp [Memory.readRun, hb, hbs]⟩

/-- What a run read holds: its length, and each of its bytes. -/
theorem Memory.readRun_spec (m : Memory) :
    ∀ (n a : Nat) (bs : List Byte), m.readRun a n = some bs →
      bs.length = n ∧ ∀ k < n, m.readByte (a + k) = bs[k]? := by
  intro n
  induction n with
  | zero => intro a bs h; simp_all [Memory.readRun]
  | succ n ih =>
    intro a bs h
    unfold Memory.readRun at h
    split at h
    · rename_i b rest hb hr
      obtain ⟨hl, hk⟩ := ih _ _ hr
      cases h
      refine ⟨by simp [hl], ?_⟩
      intro k hk'
      cases k with
      | zero => simpa using hb
      | succ k =>
        have := hk k (by omega)
        simpa [Nat.add_assoc, Nat.add_comm 1 k] using this
    · cases h

/-- Two memories that agree on a run read it alike. -/
theorem Memory.readRun_congr (m m' : Memory) :
    ∀ (n a : Nat), (∀ k < n, m.readByte (a + k) = m'.readByte (a + k)) → m.readRun a n = m'.readRun a n := by
  intro n
  induction n with
  | zero => intro a _; rfl
  | succ n ih =>
    intro a h
    have h0 := h 0 (by omega)
    have hr := ih (a + 1) (fun k hk => by
      have := h (k + 1) (by omega)
      rwa [Nat.add_comm k 1, ← Nat.add_assoc] at this)
    simp only [Nat.add_zero] at h0
    simp [Memory.readRun, h0, hr]

/-- A run whose bytes are known is read as that list. -/
theorem Memory.readRun_of_bytes (m : Memory) (n a : Nat) (bs : List Byte) (hl : bs.length = n)
    (h : ∀ k < n, m.readByte (a + k) = bs[k]?) : m.readRun a n = some bs := by
  obtain ⟨cs, hcs⟩ := Memory.readRun_isSome m n a (fun k hk => by
    rw [h k hk, List.getElem?_eq_getElem (by omega)]; rfl)
  obtain ⟨hl', h'⟩ := Memory.readRun_spec m n a cs hcs
  rw [hcs]
  congr 1
  refine List.ext_getElem? fun k => ?_
  by_cases hk : k < n
  · rw [← h' k hk, h k hk]
  · rw [List.getElem?_eq_none (by omega), List.getElem?_eq_none (by omega)]

end Sys2Proof.Machine
end

