-- ==== Sys2Proof/Laws/Ops.lean ====
section
/-! SUPPORT. What the shared operations can do: reads of the buffered bytes, operands, the length field, append, padding, completion. Later proofs cite these and do not unfold the operations. -/

namespace Sys2Proof.Machine

/-! ### Byte sequences -/

@[simp] theorem be32bytes_length (v : Word) : (be32bytes v).length = 4 := rfl
@[simp] theorem be64bytes_length (v : BitVec 64) : (be64bytes v).length = 8 := rfl
@[simp] theorem zeros_length (n : Nat) : (zeros n).length = n := List.length_replicate ..

@[simp] theorem operandBytes_length (data : Word) (n : Fin 5) : (operandBytes data n).length = n.val := by
  simp [operandBytes]; omega

/-- Byte `i` of an UPDATE's operand is byte lane `DATA[31-8i:24-8i]` [20_memory.md R55 (a)]. -/
theorem operandBytes_getElem? (data : Word) (n : Fin 5) (i : Nat) (h : i < n.val) :
    (operandBytes data n)[i]? = some (data.extractLsb' (24 - 8 * i) 8) := by
  have : i = 0 ∨ i = 1 ∨ i = 2 ∨ i = 3 := by omega
  rw [operandBytes, List.getElem?_take_of_lt h]
  rcases this with rfl | rfl | rfl | rfl <;> rfl

/-! ### The block buffer -/

/-- `bufferedBytes` reads the valid bytes wherever `buf_len` is in range and they have values. -/
theorem bufferedBytes_ok (s : State) (hl : s.bufLen.toNat < 64) (hf : Memory.filledBelow s.buf s.bufLen.toNat) :
    ∃ bs, bufferedBytes s = .ok bs ∧ Memory.readRun s.buf 0 s.bufLen.toNat = some bs ∧
      bs.length = s.bufLen.toNat := by
  obtain ⟨bs, hbs⟩ := Memory.readRun_isSome s.buf s.bufLen.toNat 0 (fun k hk => by simpa using hf k hk)
  refine ⟨bs, ?_, hbs, (Memory.readRun_spec _ _ _ _ hbs).1⟩
  have : s.bufLen.toNat ≤ 64 := by omega
  simp [bufferedBytes, blockBytes, hl, memRead, this, hbs]

/-- What `bufferedBytes` answers is the run of the buffer below `buf_len`. -/
theorem bufferedBytes_inv {s : State} {bs : List Byte} (h : bufferedBytes s = .ok bs) :
    s.bufLen.toNat < 64 ∧ Memory.readRun s.buf 0 s.bufLen.toNat = some bs ∧ bs.length = s.bufLen.toNat := by
  unfold bufferedBytes blockBytes at h
  split at h
  · rename_i hl
    unfold memRead at h
    split at h
    · split at h
      · rename_i bs' hbs
        cases h
        exact ⟨hl, hbs, (Memory.readRun_spec _ _ _ _ hbs).1⟩
      · cases h
    · cases h
  · cases h

theorem memWrite_ok (m : Memory) (k : Nat) (bs : List Byte) (h : k + bs.length ≤ 64) :
    memWrite m k bs = .ok (m.writeRun k bs) := by
  simp [memWrite, h]

/-- The length field exists for every count up to MAX_BYTES [43_streaming_driver.md R150]. -/
theorem lengthField_ok (n : BitVec 64) (h : n.toNat ≤ maxBytes) :
    lengthField n = .ok (be64bytes (BitVec.ofNat 64 (8 * n.toNat))) := by
  have : 8 * n.toNat < 2 ^ 64 := by simp only [maxBytes] at h; omega
  unfold lengthField
  rw [if_pos this]

theorem lengthField_inv {n : BitVec 64} {lb : List Byte} (h : lengthField n = .ok lb) :
    lb = be64bytes (BitVec.ofNat 64 (8 * n.toNat)) := by
  unfold lengthField at h
  split at h
  · cases h; rfl
  · cases h

/-! ### Append -/

/-- `Append` where the block does not complete [43_streaming_driver.md R140]. -/
theorem append_short (bytes : List Byte) (s : State) (h : s.bufLen.toNat + bytes.length < 64) :
    append bytes s = .ok { s with
      buf := Memory.writeRun s.buf s.bufLen.toNat bytes
      bufLen := BitVec.ofNat 7 (s.bufLen.toNat + bytes.length) } := by
  have hw := memWrite_ok s.buf s.bufLen.toNat bytes (by omega)
  simp [append, blockBytes, h, hw, bind, Except.bind]

/-- `Append` where the block completes [43_streaming_driver.md R140]. -/
theorem append_full (bytes : List Byte) (s : State) (front : List Byte) (hf : bufferedBytes s = .ok front)
    (h : 64 ≤ s.bufLen.toNat + bytes.length) (hb : bytes.length ≤ 4) :
    append bytes s = .ok (load (front ++ bytes.take (64 - s.bufLen.toNat)) .pNone s.h { s with
      buf := Memory.writeRun s.buf 0 (bytes.drop (64 - s.bufLen.toNat))
      bufLen := BitVec.ofNat 7 (bytes.length - (64 - s.bufLen.toNat)) }) := by
  have hw := memWrite_ok s.buf 0 (bytes.drop (64 - s.bufLen.toNat)) (by simp; omega)
  have hn : ¬ s.bufLen.toNat + bytes.length < 64 := by omega
  simp [append, blockBytes, hn, hf, hw, bind, Except.bind]

/-- The two things `Append` of at most four bytes can do when it answers a state. -/
theorem append_inv {bytes : List Byte} {s t : State} (hb : bytes.length ≤ 4) (h : append bytes s = .ok t) :
    (s.bufLen.toNat + bytes.length < 64 ∧ t = { s with
      buf := Memory.writeRun s.buf s.bufLen.toNat bytes
      bufLen := BitVec.ofNat 7 (s.bufLen.toNat + bytes.length) }) ∨
    (64 ≤ s.bufLen.toNat + bytes.length ∧ ∃ front, bufferedBytes s = .ok front ∧
      t = load (front ++ bytes.take (64 - s.bufLen.toNat)) .pNone s.h { s with
        buf := Memory.writeRun s.buf 0 (bytes.drop (64 - s.bufLen.toNat))
        bufLen := BitVec.ofNat 7 (bytes.length - (64 - s.bufLen.toNat)) }) := by
  by_cases hs : s.bufLen.toNat + bytes.length < 64
  · rw [append_short bytes s hs] at h
    cases h
    exact .inl ⟨hs, rfl⟩
  · cases hf : bufferedBytes s with
    | error r => simp [append, blockBytes, hs, hf, bind, Except.bind] at h
    | ok front =>
      rw [append_full bytes s front hf (by omega) hb] at h
      cases h
      exact .inr ⟨by omega, front, rfl, rfl⟩

/-! ### Padding and completion -/

/-- `StartPadding` when the buffered bytes and the length field exist [43_streaming_driver.md R143]. -/
theorem startPadding_ok (s : State) (front lb : List Byte) (hf : bufferedBytes s = .ok front)
    (hl : lengthField s.totalLen = .ok lb) :
    startPadding s = .ok (load (padA front lb) (if s.bufLen.toNat ≤ 55 then .pFinal else .pFirst) s.h s) := by
  have hlen := (bufferedBytes_inv hf).2.2
  have : (front.length + 1 ≤ padLimit) = (s.bufLen.toNat ≤ 55) := by
    rw [hlen]; simp only [padLimit, eq_iff_iff]; omega
  simp [startPadding, hf, hl, bind, Except.bind, this]

theorem startPadding_inv {s t : State} (h : startPadding s = .ok t) :
    ∃ front lb, bufferedBytes s = .ok front ∧ lengthField s.totalLen = .ok lb ∧
      t = load (padA front lb) (if s.bufLen.toNat ≤ 55 then .pFinal else .pFirst) s.h s := by
  cases hf : bufferedBytes s with
  | error r => simp [startPadding, hf, bind, Except.bind] at h
  | ok front =>
    cases hl : lengthField s.totalLen with
    | error r => simp [startPadding, hf, hl, bind, Except.bind] at h
    | ok lb =>
      rw [startPadding_ok s front lb hf hl] at h
      cases h
      exact ⟨front, lb, rfl, rfl, rfl⟩

/-- PadA with at most 55 bytes: data, 0x80, zeros, length [43_streaming_driver.md R142]. -/
theorem padA_short (front lb : List Byte) (h : front.length ≤ 55) :
    padA front lb = front ++ [0x80] ++ zeros (55 - front.length) ++ lb := by
  have h1 : front.length + 1 ≤ padLimit := by simp only [padLimit]; omega
  have h2 : (front ++ [(0x80 : Byte)] ++ zeros (63 - front.length)).take 56 =
      front ++ [(0x80 : Byte)] ++ zeros (55 - front.length) := by
    rw [List.take_append, List.take_of_length_le (by simp; omega)]
    simp only [zeros, List.take_replicate, List.length_append, List.length_singleton]
    congr 2
    omega
  simp only [padA, h1, if_true]
  rw [h2]

/-- PadA with 56 bytes or more: data, 0x80, zeros [43_streaming_driver.md R142]. -/
theorem padA_long (front lb : List Byte) (h : 56 ≤ front.length) :
    padA front lb = front ++ [0x80] ++ zeros (63 - front.length) := by
  have h1 : ¬ front.length + 1 ≤ padLimit := by simp only [padLimit]; omega
  simp [padA, h1]

/-- The three things `Complete` can do when it answers a state [43_streaming_driver.md R144]. -/
theorem complete_inv {s t : State} (h : complete s = .ok t) :
    (s.pad = .pNone ∧ t = stopEngine s) ∨
    (s.pad = .pFirst ∧ ∃ lb, lengthField s.totalLen = .ok lb ∧ t = load (padB lb) .pFinal s.h s) ∨
    (s.pad = .pFinal ∧ t = { stopEngine s with phase := .finalized, bufLen := 0, pad := .pNone }) := by
  unfold complete at h
  split at h
  · rename_i hp
    cases h
    exact .inl ⟨hp, rfl⟩
  · rename_i hp
    cases hl : lengthField s.totalLen with
    | error r => simp [hl, bind, Except.bind] at h
    | ok lb =>
      simp only [hl, bind, Except.bind] at h
      cases h
      exact .inr (.inl ⟨hp, lb, rfl, rfl⟩)
  · rename_i hp
    cases h
    exact .inr (.inr ⟨hp, rfl⟩)

end Sys2Proof.Machine
end

