-- ==== Sys2Proof/Laws/Engine.lean ====
section
/-! SUPPORT. What an edge can do: the engine's step, the edge of a command, of another access, of no access. -/

namespace Sys2Proof.Machine

/-- The engine's step, by its three cases [42_block_compressor.md R125, R126, R129]. -/
theorem engineEdge_inv {s t : State} (h : engineEdge s = .ok t) :
    (s.eng = .idle ∧ t = s) ∨
    (s.eng = .compress ∧ s.rnd.toNat < 64 ∧ t = roundStep s) ∨
    (s.eng = .compress ∧ s.rnd = 64 ∧ complete { s with h := addWords s.h s.v } = .ok t) := by
  unfold engineEdge at h
  split at h
  · rename_i he
    cases h
    exact .inl ⟨he, rfl⟩
  · rename_i he
    split at h
    · rename_i hr
      cases h
      exact .inr (.inl ⟨he, hr, rfl⟩)
    · split at h
      · rename_i hr
        exact .inr (.inr ⟨he, BitVec.eq_of_toNat_eq hr, h⟩)
      · cases h

theorem engineEdge_idle {s : State} (h : s.eng = .idle) : engineEdge s = .ok s := by
  simp [engineEdge, h]

theorem engineEdge_round {s : State} (h : s.eng = .compress) (hr : s.rnd.toNat < 64) :
    engineEdge s = .ok (roundStep s) := by
  simp [engineEdge, h, hr]

theorem engineEdge_feedForward {s : State} (h : s.eng = .compress) (hr : s.rnd = 64) :
    engineEdge s = complete { s with h := addWords s.h s.v } := by
  simp [engineEdge, h, hr, feedForward]

/-- The engine steps wherever the spec gives it a step. -/
theorem engineEdge_ok {s : State} (h : s.EngineOk) : ∃ t, engineEdge s = .ok t := by
  cases he : s.eng with
  | idle => exact ⟨s, engineEdge_idle he⟩
  | compress =>
    obtain ⟨hr, hp⟩ := h he
    by_cases hr' : s.rnd.toNat < 64
    · exact ⟨_, engineEdge_round he hr'⟩
    · rw [engineEdge_feedForward he (BitVec.eq_of_toNat_eq (by simp; omega))]
      cases hpad : s.pad with
      | pNone => exact ⟨stopEngine _, by rfl⟩
      | pFinal => exact ⟨_, by rfl⟩
      | pFirst =>
        have hl := lengthField_ok _ (hp hpad)
        exact ⟨_, by unfold complete; simp only [hl]; rfl⟩

/-- What the engine's step never writes. -/
theorem engineEdge_frame {s t : State} (h : engineEdge s = .ok t) :
    t.buf = s.buf ∧ t.totalLen = s.totalLen ∧ t.data = s.data ∧ t.errIllegal = s.errIllegal ∧
      t.errMisuse = s.errMisuse ∧ t.errCapacity = s.errCapacity ∧ t.inputs = s.inputs ∧ t.request = s.request ∧
      t.ack = s.ack ∧ t.rdata = s.rdata := by
  rcases engineEdge_inv h with ⟨-, rfl⟩ | ⟨-, -, rfl⟩ | ⟨-, -, hc⟩
  · simp
  · simp
  · rcases complete_inv hc with ⟨-, rfl⟩ | ⟨-, lb, -, rfl⟩ | ⟨-, rfl⟩ <;> simp

/-! ### The edge of an access -/

theorem busy_idle {s : State} (h : s.eng = .idle) : s.busy = false := by simp [State.busy, h]
theorem busy_compress {s : State} (h : s.eng = .compress) : s.busy = true := by simp [State.busy, h]
theorem busy_iff {s : State} : s.busy = true ↔ s.eng = .compress := by
  cases h : s.eng <;> simp [State.busy, h]

theorem engine_cases (s : State) : s.eng = .idle ∨ s.eng = .compress := by cases s.eng <;> simp

/-- While IDLE a command is performed and acked. -/
theorem commandEdge_idle {c : State → Except Fault State} {s t : State} (h : s.eng = .idle) (hc : c s = .ok t) :
    commandEdge c s = .next (acked none t) := by
  simp [commandEdge, busy_idle h, hc]

/-- While COMPRESS a command is held: the edge is the one with no access. -/
theorem commandEdge_busy (c : State → Except Fault State) {s : State} (h : s.eng = .compress) :
    commandEdge c s = idleEdge s := by
  simp [commandEdge, idleEdge, busy_compress h]

/-- What the edge of a command can do when it goes on. -/
theorem commandEdge_inv {c : State → Except Fault State} {s t : State} (h : commandEdge c s = .next t) :
    (s.eng = .compress ∧ ∃ u, engineEdge s = .ok u ∧ t = notAcked u) ∨
    (s.eng = .idle ∧ ∃ u, c s = .ok u ∧ t = acked none u) := by
  rcases engine_cases s with he | he
  · cases hc : c s with
    | error r => simp [commandEdge, busy_idle he, hc] at h
    | ok u =>
      rw [commandEdge_idle he hc] at h
      cases h
      exact .inr ⟨he, u, rfl, rfl⟩
  · cases hc : engineEdge s with
    | error r => simp [commandEdge, busy_compress he, hc] at h
    | ok u =>
      simp only [commandEdge, busy_compress he, hc, if_true] at h
      cases h
      exact .inl ⟨he, u, rfl, rfl⟩

/-- What the edge of another access can do when it goes on. -/
theorem accessEdge_inv {value : Option Word} {f : State → State} {s t : State}
    (h : accessEdge value f s = .next t) : ∃ u, engineEdge s = .ok u ∧ t = acked value (f u) := by
  cases hc : engineEdge s with
  | error r => simp [accessEdge, hc] at h
  | ok u =>
    simp only [accessEdge, hc] at h
    cases h
    exact ⟨u, rfl, rfl⟩

/-- The edge of another access goes on wherever the engine can step. -/
theorem accessEdge_ok {s u : State} (value : Option Word) (f : State → State) (h : engineEdge s = .ok u) :
    accessEdge value f s = .next (acked value (f u)) := by
  simp [accessEdge, h]

theorem idleEdge_ok {s u : State} (h : engineEdge s = .ok u) : idleEdge s = .next (notAcked u) := by
  simp [idleEdge, h]

theorem idleEdge_inv {s t : State} (h : idleEdge s = .next t) : ∃ u, engineEdge s = .ok u ∧ t = notAcked u := by
  cases hc : engineEdge s with
  | error r => simp [idleEdge, hc] at h
  | ok u =>
    simp only [idleEdge, hc] at h
    cases h
    exact ⟨u, rfl, rfl⟩

/-- An edge that performs a non-command access with no write of its own is the engine's step alone. -/
theorem accessEdge_onlyEngine {s u : State} (value : Option Word) (h : engineEdge s = .ok u) :
    (acked value u).Acked s value ∧ (acked value u).OnlyEngine s := by
  refine ⟨acked_Acked value (engineEdge_frame h).2.2.2.2.2.2.1, ⟨u, h, rfl⟩, fun he => ?_⟩
  rw [engineEdge_idle he] at h
  cases h
  rfl

/-! ### exec -/

/-- The effect of each command, as `commandEdge` takes it. -/
def commandEffect : Command → State → Except Fault State
  | .nop => nopEffect
  | .init => initEffect
  | .update n => updateEffect n
  | .final => finalEffect
  | .illegal _ => illegalEffect

theorem exec_command (c : Command) (s : State) : exec c.toInstr s = commandEdge (commandEffect c) s := by
  cases c <;> rfl

theorem exec_nop (s : State) : exec .nop s = commandEdge nopEffect s := rfl
theorem exec_init (s : State) : exec .init s = commandEdge initEffect s := rfl
theorem exec_update (n : Fin 5) (s : State) : exec (.update n) s = commandEdge (updateEffect n) s := rfl
theorem exec_final (s : State) : exec .final s = commandEdge finalEffect s := rfl
theorem exec_illegal (w : Word) (s : State) : exec (.illegal w) s = commandEdge illegalEffect s := rfl

/-- A write of CMD runs the command its word decodes to [41_commands.md R90]. -/
theorem exec_wrCmd (b : BitVec 2) (w : Word) (s : State) :
    exec (.wrCmd b w) s = commandEdge (commandEffect (decodeCmd w)) s := by
  show execWrCmd b w s = _
  unfold execWrCmd
  split <;> rename_i h <;> rw [h] <;> rfl

/-- Neither a command nor a write of CMD or DATA: a read or an ignored write. -/
def Instr.isPassive : Instr → Bool
  | .nop => false
  | .init => false
  | .update _ => false
  | .final => false
  | .illegal _ => false
  | .wrCmd _ _ => false
  | .wrData _ _ => false
  | .wrIgnoredStatus _ _ _ => true
  | .wrIgnoredLen _ _ _ => true
  | .wrIgnoredDigest _ _ _ => true
  | .rdCmd _ => true
  | .rdData _ => true
  | .rdStatus _ => true
  | .rdReserved _ => true
  | .rdLenLo _ => true
  | .rdLenHi _ => true
  | .rdReservedHigh _ _ => true
  | .rdDigest _ _ => true

/-- A read or an ignored write is the engine's step with an ack. -/
theorem exec_passive (i : Instr) (s : State) (h : Instr.isPassive i = true) :
    ∃ value, exec i s = accessEdge value id s := by
  cases i <;> first | exact ⟨_, rfl⟩ | simp [Instr.isPassive] at h

theorem exec_wrData (b : BitVec 2) (w : Word) (s : State) :
    exec (.wrData b w) s = accessEdge none (setData w) s := rfl

/-- No instruction is refused: the one refusal of a step is a withdrawn request. -/
theorem exec_not_refused (i : Instr) (s : State) (r : Refusal) : exec i s ≠ .refused r := by
  have hc : ∀ c, commandEdge c s ≠ .refused r := by
    intro c; unfold commandEdge; split <;> split <;> simp
  have ha : ∀ v f, accessEdge v f s ≠ .refused r := by
    intro v f; unfold accessEdge; split <;> simp
  cases i with
  | nop => exact hc nopEffect
  | init => exact hc initEffect
  | update n => exact hc (updateEffect n)
  | final => exact hc finalEffect
  | illegal w => exact hc illegalEffect
  | wrCmd b w => rw [exec_wrCmd]; exact hc _
  | _ => exact ha _ _

end Sys2Proof.Machine
end

