-- ==== Sys2Proof/Laws/Decode.lean ====
section
/-! SUPPORT. What the decoder yields, and the accesses of numbered words. -/

namespace Sys2Proof.Machine

/-- A descriptor decodes to a write of CMD, a write of DATA, or an access that writes nothing of its own
[30_encoding.md R81]. -/
theorem decodeDescriptor_cases (acc : BitVec 7) (w : Word) :
    (∃ b, decodeDescriptor acc w = .wrCmd b w) ∨ (∃ b, decodeDescriptor acc w = .wrData b w) ∨
      Instr.isPassive (decodeDescriptor acc w) = true := by
  simp only [decodeDescriptor]
  repeat' split
  all_goals first
    | exact .inl ⟨_, rfl⟩
    | exact .inr (.inl ⟨_, rfl⟩)
    | exact .inr (.inr rfl)

/-- A descriptor decodes to a write of CMD exactly if it writes register index 0 [30_encoding.md R81]. -/
theorem decodeDescriptor_wrCmd_iff (acc : BitVec 7) (w : Word) :
    (∃ b w', decodeDescriptor acc w = .wrCmd b w') ↔ accWrites acc = true ∧ (accReg acc).toNat = 0 := by
  unfold decodeDescriptor
  dsimp only
  by_cases hw : accWrites acc = true
  · rw [if_pos hw]
    by_cases ha : (accReg acc).toNat = 0
    · rw [if_pos ha]
      exact ⟨fun _ => ⟨hw, ha⟩, fun _ => ⟨_, _, rfl⟩⟩
    · rw [if_neg ha]
      refine ⟨fun ⟨b, w', h⟩ => ?_, fun h => absurd h.2 ha⟩
      revert h
      repeat' split
      all_goals intro h; cases h
  · rw [if_neg hw]
    refine ⟨fun ⟨b, w', h⟩ => ?_, fun h => absurd h.1 hw⟩
    revert h
    repeat' split
    all_goals intro h; cases h

/-- An access decodes to a write of CMD exactly if it is a write at register index 0 [44_register_access.md R160]. -/
theorem decodeAccess_wrCmd_iff (a : HostAccess) :
    (∃ b w, decodeAccess a = .wrCmd b w) ↔ accessIsCmdWrite a = true := by
  refine (decodeDescriptor_wrCmd_iff _ _).trans ?_
  cases a with
  | read addr =>
    have : ∀ addr : BitVec 6, accWrites (0#1 ++ addr) = false := by decide
    simp [HostAccess.descriptor, this, accessIsCmdWrite]
  | write addr wdata =>
    have : ∀ addr : BitVec 6, (accWrites (1#1 ++ addr) = true ∧ (accReg (1#1 ++ addr)).toNat = 0) ↔
        (addr.extractLsb' 2 4 == 0) = true := by decide
    exact this addr

/-- The write of CMD at an offset of register index 0 runs the word it carries. -/
theorem decodeAccess_cmdWrite (addr : BitVec 6) (w : Word) (h : addr.extractLsb' 2 4 = 0) :
    ∃ b, decodeAccess (.write addr w) = .wrCmd b w := by
  have hd := (decodeAccess_wrCmd_iff (.write addr w)).2 (by simp [accessIsCmdWrite, h])
  rcases decodeDescriptor_cases (1#1 ++ addr) w with hc | ⟨b, hc⟩ | hc
  · exact hc
  · obtain ⟨b', w', hd⟩ := hd
    rw [show decodeAccess (.write addr w) = decodeDescriptor (1#1 ++ addr) w from rfl, hc] at hd
    cases hd
  · obtain ⟨b', w', hd⟩ := hd
    rw [show decodeAccess (.write addr w) = decodeDescriptor (1#1 ++ addr) w from rfl] at hd
    rw [hd] at hc
    cases hc

/-- The access with a descriptor decodes as the descriptor does. -/
theorem decodeAccess_accessOf (acc : BitVec 7) (w : Word) :
    decodeAccess (accessOf acc w) = decodeDescriptor acc w := by
  have h1 : ∀ acc : BitVec 7, accWrites acc = true → 1#1 ++ acc.extractLsb' 0 6 = acc := by decide
  have h0 : ∀ acc : BitVec 7, accWrites acc = false → 0#1 ++ acc.extractLsb' 0 6 = acc := by decide
  cases hw : accWrites acc with
  | true =>
    simp only [decodeAccess, accessOf, hw, if_true, HostAccess.descriptor, HostAccess.wdata, h1 acc hw]
  | false =>
    simp only [decodeAccess, accessOf, hw, Bool.false_eq_true, if_false, HostAccess.descriptor, HostAccess.wdata,
      h0 acc hw, decodeDescriptor]

@[simp] theorem accWrites_read (addr : BitVec 6) : accWrites (HostAccess.read addr).descriptor = false := by
  rw [accWrites, HostAccess.descriptor, BitVec.getLsbD_append]
  rfl

@[simp] theorem accWrites_write (addr : BitVec 6) (w : Word) : accWrites (HostAccess.write addr w).descriptor = true := by
  rw [accWrites, HostAccess.descriptor, BitVec.getLsbD_append]
  rfl

/-- A read decodes to an access that writes nothing of its own [30_encoding.md R81]. -/
theorem isPassive_read (addr : BitVec 6) : Instr.isPassive (decodeAccess (.read addr)) = true := by
  unfold decodeAccess decodeDescriptor
  simp only [accWrites_read, Bool.false_eq_true, if_false]
  repeat' split
  all_goals rfl

/-- Only a write decodes to a write of DATA, and it carries the word written. -/
theorem decodeAccess_wrData {a : HostAccess} {b : BitVec 2} {w : Word} (h : decodeAccess a = .wrData b w) :
    ∃ addr, a = .write addr w := by
  rcases decodeDescriptor_cases a.descriptor a.wdata with ⟨b', hd⟩ | ⟨b', hd⟩ | hd
  · rw [show decodeAccess a = _ from hd] at h
    cases h
  · cases a with
    | read addr =>
      have hp := isPassive_read addr
      rw [h] at hp
      cases hp
    | write addr w' =>
      rw [show decodeAccess (.write addr w') = _ from hd] at h
      injection h with _ hw
      exact ⟨addr, by rw [← hw]; rfl⟩
  · rw [show Instr.isPassive (decodeDescriptor a.descriptor a.wdata) = Instr.isPassive (decodeAccess a) from rfl, h] at hd
    cases hd

end Sys2Proof.Machine
end

