-- ==== Sys2Proof/Laws/Step.lean ====
section
/-! SUPPORT. Everything one step can do, said once. -/

namespace Sys2Proof.Machine

/-- The cases of a step that goes on, with `p` the state that has taken the edge's input. -/
inductive StepCase (s p t : State) : Prop where
  /-- `rst = 1`. -/
  | reset (rst : s.nextIn.rst = true) (next : t = resetEdge p)
  /-- No access: the engine alone. -/
  | quiet (rst : s.nextIn.rst = false) (req : s.nextIn.req = none) (u : State) (edge : engineEdge p = .ok u)
      (next : t = notAcked u)
  /-- A write of CMD held while BUSY. -/
  | held (rst : s.nextIn.rst = false) (a : HostAccess) (req : s.nextIn.req = some a) (b : BitVec 2) (w : Word)
      (dec : decodeAccess a = .wrCmd b w) (busy : s.eng = .compress) (u : State) (edge : engineEdge p = .ok u)
      (next : t = notAcked u)
  /-- A command performed. -/
  | command (rst : s.nextIn.rst = false) (a : HostAccess) (req : s.nextIn.req = some a) (b : BitVec 2) (w : Word)
      (dec : decodeAccess a = .wrCmd b w) (idle : s.eng = .idle) (u : State)
      (effect : commandEffect (decodeCmd w) p = .ok u) (next : t = acked none u)
  /-- A write of DATA. -/
  | data (rst : s.nextIn.rst = false) (a : HostAccess) (req : s.nextIn.req = some a) (b : BitVec 2) (w : Word)
      (dec : decodeAccess a = .wrData b w) (u : State) (edge : engineEdge p = .ok u)
      (next : t = acked none (setData w u))
  /-- A read or an ignored write. -/
  | passive (rst : s.nextIn.rst = false) (a : HostAccess) (req : s.nextIn.req = some a)
      (dec : Instr.isPassive (decodeAccess a) = true) (u : State) (edge : engineEdge p = .ok u)
      (value : Option Word) (next : t = acked value u)

/-- A step that goes on was not refused and is one of these cases. -/
theorem step_cases {s t : State} (h : step s = .next t) :
    s.withdraws s.nextIn = false ∧ StepCase s (s.present s.nextIn) t := by
  unfold step at h
  split at h
  · cases h
  · rename_i hw
    refine ⟨by simpa using hw, ?_⟩
    split at h
    · rename_i hr
      cases h
      exact .reset hr rfl
    · rename_i hr
      have hr : s.nextIn.rst = false := by simpa using hr
      split at h
      · rename_i a ha
        rcases decodeDescriptor_cases a.descriptor a.wdata with ⟨b, hd⟩ | ⟨b, hd⟩ | hd
        · rw [show decodeAccess a = _ from hd, exec_wrCmd] at h
          rcases commandEdge_inv h with ⟨he, u, hu, rfl⟩ | ⟨he, u, hu, rfl⟩
          · exact .held hr a ha b _ hd he u hu rfl
          · exact .command hr a ha b _ hd he u hu rfl
        · rw [show decodeAccess a = _ from hd, exec_wrData] at h
          obtain ⟨u, hu, rfl⟩ := accessEdge_inv h
          exact .data hr a ha b _ hd u hu rfl
        · obtain ⟨value, hv⟩ := exec_passive (decodeAccess a) (s.present s.nextIn) hd
          rw [hv] at h
          obtain ⟨u, hu, rfl⟩ := accessEdge_inv h
          exact .passive hr a ha hd u hu value rfl
      · rename_i ha
        obtain ⟨u, hu, rfl⟩ := idleEdge_inv h
        exact .quiet hr ha u hu rfl

/-- An edge with BUSY = 1 and `rst = 0` is the engine's step, whatever access is presented, but for a write of DATA
[44_register_access.md R170]. -/
theorem step_busy {s u : State} (he : s.eng = .compress) (hh : s.holdsRequest) (hr : s.nextIn.rst = false)
    (hu : engineEdge (s.present s.nextIn) = .ok u) :
    ∃ t, step s = .next t ∧ t.block = { u.block with data := t.data } ∧
      ((∀ addr w, s.nextIn.req ≠ some (.write addr w)) → t.data = u.data) := by
  rw [State.holdsRequest] at hh
  unfold step
  simp only [hh, hr, Bool.false_eq_true, if_false]
  cases hq : s.nextIn.req with
  | none =>
    simp only
    rw [idleEdge_ok hu]
    exact ⟨_, rfl, rfl, fun _ => rfl⟩
  | some a =>
    simp only
    rcases decodeDescriptor_cases a.descriptor a.wdata with ⟨b, hd⟩ | ⟨b, hd⟩ | hd
    · rw [show decodeAccess a = _ from hd, exec_wrCmd, commandEdge_busy _ (by exact he), idleEdge_ok hu]
      exact ⟨_, rfl, rfl, fun _ => rfl⟩
    · obtain ⟨addr, ha⟩ := decodeAccess_wrData (a := a) hd
      rw [show decodeAccess a = _ from hd, exec_wrData, accessEdge_ok _ _ hu]
      exact ⟨_, rfl, rfl, fun h => absurd (congrArg some ha) (h _ _)⟩
    · obtain ⟨v, hv⟩ := exec_passive (decodeAccess a) (s.present s.nextIn) hd
      rw [hv, accessEdge_ok _ _ hu]
      exact ⟨_, rfl, rfl, fun _ => rfl⟩

/-- With nothing on the ports the edge is the engine's step alone. -/
theorem step_alone {s : State} (hi : s.inputs = []) (hr : s.request = none) : step s = idleEdge s := by
  have hn : s.nextIn = ⟨false, none⟩ := by simp [State.nextIn, hi, hr]
  have hp : s.present s.nextIn = s := by
    rw [hn, State.present, hi, List.tail_nil, ← hr, ← hi]
  unfold step
  rw [hp, hn]
  simp [State.withdraws, hr]

end Sys2Proof.Machine
end

