-- ==== Sys2Proof/Laws/Commands.lean ====
section
/-! SUPPORT. The effect of each command, by the branches of its rule. -/

namespace Sys2Proof.Machine

theorem updateEffect_misuse (n : Fin 5) (s : State) (h : s.phase = .finalized) :
    updateEffect n s = .ok (raise .misuse s) := by
  simp [updateEffect, h]

theorem updateEffect_capacity (n : Fin 5) (s : State) (hp : s.phase ≠ .finalized)
    (h : maxBytes < s.totalLen.toNat + n.val) : updateEffect n s = .ok (raise .capacity s) := by
  simp [updateEffect, hp, h]

theorem updateEffect_append (n : Fin 5) (s : State) (hp : s.phase ≠ .finalized)
    (h : s.totalLen.toNat + n.val ≤ maxBytes) :
    updateEffect n s = append (operandBytes s.data n)
      { s with totalLen := s.totalLen + BitVec.ofNat 64 n.val, phase := s.phase.afterUpdate } := by
  have : ¬ maxBytes < s.totalLen.toNat + n.val := by omega
  simp [updateEffect, hp, this]

theorem finalEffect_misuse (s : State) (h : s.phase = .finalized) : finalEffect s = .ok (raise .misuse s) := by
  simp [finalEffect, h]

theorem finalEffect_padding (s : State) (h : s.phase ≠ .finalized) :
    finalEffect s = startPadding { s with phase := .finalizing } := by
  simp [finalEffect, h]

/-- The byte count after an accepted UPDATE is exact: it does not wrap. -/
theorem totalLen_add (t : BitVec 64) (n : Fin 5) (h : t.toNat + n.val ≤ maxBytes) :
    (t + BitVec.ofNat 64 n.val).toNat = t.toNat + n.val := by
  simp only [maxBytes] at h
  rw [BitVec.toNat_add, BitVec.toNat_ofNat]
  omega

/-- Every command has an effect from every state that meets the invariant, and leaves the later inputs. -/
theorem commandEffect_ok (c : Command) (s : State) (hi : s.Inv) :
    ∃ u, commandEffect c s = .ok u ∧ u.inputs = s.inputs := by
  obtain ⟨front, hf, -, hl⟩ := bufferedBytes_ok s hi.bufLenLt hi.bufFilled
  cases c with
  | nop => exact ⟨s, rfl, rfl⟩
  | init => exact ⟨_, rfl, rfl⟩
  | illegal w => exact ⟨_, rfl, rfl⟩
  | update n =>
    show ∃ u, updateEffect n s = .ok u ∧ _
    by_cases hp : s.phase = .finalized
    · exact ⟨_, updateEffect_misuse n s hp, rfl⟩
    · by_cases hc : maxBytes < s.totalLen.toNat + n.val
      · exact ⟨_, updateEffect_capacity n s hp hc, rfl⟩
      · rw [updateEffect_append n s hp (by omega)]
        by_cases h : s.bufLen.toNat + n.val < 64
        · exact ⟨_, append_short _ _ (by simpa using h), rfl⟩
        · exact ⟨_, append_full _ _ front hf (by simp; omega) (by simp; omega), rfl⟩
  | final =>
    show ∃ u, finalEffect s = .ok u ∧ _
    by_cases hp : s.phase = .finalized
    · exact ⟨_, finalEffect_misuse s hp, rfl⟩
    · rw [finalEffect_padding s hp]
      exact ⟨_, startPadding_ok _ front _ hf (lengthField_ok _ hi.totalLe), rfl⟩

/-- What UPDATE can do when it answers a state: misuse, capacity, bytes stored, a block completed [41_commands.md R94]. -/
theorem updateEffect_inv {n : Fin 5} {s t : State} (h : updateEffect n s = .ok t) :
    (s.phase = .finalized ∧ t = raise .misuse s) ∨
    (s.phase ≠ .finalized ∧ maxBytes < s.totalLen.toNat + n.val ∧ t = raise .capacity s) ∨
    (s.phase ≠ .finalized ∧ s.totalLen.toNat + n.val ≤ maxBytes ∧
      append (operandBytes s.data n)
        { s with totalLen := s.totalLen + BitVec.ofNat 64 n.val, phase := s.phase.afterUpdate } = .ok t) := by
  by_cases hp : s.phase = .finalized
  · rw [updateEffect_misuse n s hp] at h
    cases h
    exact .inl ⟨hp, rfl⟩
  · by_cases hc : maxBytes < s.totalLen.toNat + n.val
    · rw [updateEffect_capacity n s hp hc] at h
      cases h
      exact .inr (.inl ⟨hp, hc, rfl⟩)
    · rw [updateEffect_append n s hp (by omega)] at h
      exact .inr (.inr ⟨hp, by omega, h⟩)

/-- What FINAL can do when it answers a state [41_commands.md R95]. -/
theorem finalEffect_inv {s t : State} (h : finalEffect s = .ok t) :
    (s.phase = .finalized ∧ t = raise .misuse s) ∨
    (s.phase ≠ .finalized ∧ startPadding { s with phase := .finalizing } = .ok t) := by
  by_cases hp : s.phase = .finalized
  · rw [finalEffect_misuse s hp] at h
    cases h
    exact .inl ⟨hp, rfl⟩
  · exact .inr ⟨hp, finalEffect_padding s hp ▸ h⟩

/-- What no command writes: DATA and the ports' fields [10_state.md R30]. -/
theorem commandEffect_frame {c : Command} {s t : State} (h : commandEffect c s = .ok t) :
    t.data = s.data ∧ t.inputs = s.inputs ∧ t.request = s.request ∧ t.ack = s.ack ∧ t.rdata = s.rdata := by
  cases c with
  | nop => cases h; simp
  | init => cases h; simp
  | illegal w => cases h; simp
  | final =>
    rcases finalEffect_inv h with ⟨-, rfl⟩ | ⟨-, h⟩
    · simp
    · obtain ⟨_, _, _, _, rfl⟩ := startPadding_inv h
      simp
  | update n =>
    rcases updateEffect_inv h with ⟨-, rfl⟩ | ⟨-, -, rfl⟩ | ⟨-, -, h⟩
    · simp
    · simp
    · rcases append_inv (by simp; omega) h with ⟨-, rfl⟩ | ⟨-, _, -, rfl⟩ <;> simp

/-! ### The command an edge performs -/

/-- An edge that performs a write of CMD performs the command of its word and no other. -/
theorem performs_iff {s : State} {a : HostAccess} {b : BitVec 2} {w : Word} (rst : s.nextIn.rst = false)
    (req : s.nextIn.req = some a) (dec : decodeAccess a = .wrCmd b w) (idle : s.eng = .idle) (c : Command) :
    s.performs c ↔ decodeCmd w = c := by
  constructor
  · rintro ⟨-, -, a', ha, b', w', hd, hc⟩
    rw [req] at ha
    cases ha
    rw [dec] at hd
    cases hd
    exact hc
  · exact fun hc => ⟨rst, idle, a, req, b, w, dec, hc⟩

/-- An edge with an access that is no write of CMD performs no command. -/
theorem not_performs_access {s : State} {a : HostAccess} (req : s.nextIn.req = some a)
    (dec : ∀ b w, decodeAccess a ≠ .wrCmd b w) (c : Command) : ¬ s.performs c := by
  rintro ⟨-, -, a', ha, b, w, hd, -⟩
  rw [req] at ha
  cases ha
  exact dec b w hd

/-- An edge with no access performs no command. -/
theorem not_performs_none {s : State} (req : s.nextIn.req = none) (c : Command) : ¬ s.performs c := by
  rintro ⟨-, -, a, ha, -⟩
  rw [req] at ha
  cases ha

/-- An edge while BUSY performs no command. -/
theorem not_performs_busy {s : State} (busy : s.eng = .compress) (c : Command) : ¬ s.performs c := by
  rintro ⟨-, he, -⟩
  rw [busy] at he
  cases he

/-! ### The invariant and the ports -/

theorem inv_present {s : State} (p : PortIn) (h : s.Inv) : (s.present p).Inv :=
  ⟨h.1, h.2, h.3, h.4, h.5, h.6, h.7, h.8, h.9, h.10, h.11, h.12, h.13, h.14⟩

theorem inv_acked {s : State} (value : Option Word) (h : s.Inv) : (acked value s).Inv :=
  ⟨h.1, h.2, h.3, h.4, h.5, h.6, h.7, h.8, h.9, h.10, h.11, h.12, h.13, h.14⟩

theorem inv_notAcked {s : State} (h : s.Inv) : (notAcked s).Inv :=
  ⟨h.1, h.2, h.3, h.4, h.5, h.6, h.7, h.8, h.9, h.10, h.11, h.12, h.13, h.14⟩

theorem inv_setData {s : State} (w : Word) (h : s.Inv) : (setData w s).Inv :=
  ⟨h.1, h.2, h.3, h.4, h.5, h.6, h.7, h.8, h.9, h.10, h.11, h.12, h.13, h.14⟩

theorem inv_raise {s : State} (e : Err) (h : s.Inv) : (raise e s).Inv := by
  cases e <;> exact ⟨h.1, h.2, h.3, h.4, h.5, h.6, h.7, h.8, h.9, h.10, h.11, h.12, h.13, h.14⟩

/-- The invariant gives the engine its step. -/
theorem inv_engineOk {s : State} (h : s.Inv) : s.EngineOk := fun _ => ⟨h.rndLe, fun _ => h.totalLe⟩

end Sys2Proof.Machine
end

