-- ==== Sys2Proof/Laws/Compressor.lean ====
section
/-! SUPPORT. The block compressor: the ROM's length, the schedule's recurrence helpers, the STATUS word bit by bit. -/

namespace Sys2Proof.Machine

/-- The ROM has 64 words [42_block_compressor.md R117]. -/
theorem romWords_length : romWords.length = 64 := rfl

/-- The ROM word of a 6-bit address is the list's word [20_memory.md R50]. -/
theorem romWords_getElem? (t : BitVec 6) : romWords[t.toNat]? = some (rom t) := by
  have h : t.toNat < romWords.length := by rw [romWords_length]; omega
  rw [List.getElem?_eq_getElem h, rom, List.getD_eq_getElem?_getD, List.getElem?_eq_getElem h]
  rfl

/-- The sixteen words of a block as the window holds them are its schedule words in order. -/
theorem parseBlock_toList (b : List Byte) : (parseBlock b).toList = blockWords b := rfl

@[simp] theorem extendSchedule_length (l : List Word) (n : Nat) : (extendSchedule l n).length = l.length + n := by
  induction n generalizing l with
  | zero => rfl
  | succ n ih => rw [extendSchedule, ih, List.length_cons]; omega

/-- Extending in two parts. -/
theorem extendSchedule_add (l : List Word) (m n : Nat) :
    extendSchedule l (m + n) = extendSchedule (extendSchedule l m) n := by
  induction m generalizing l with
  | zero => rw [Nat.zero_add]; rfl
  | succ m ih => rw [Nat.succ_add, extendSchedule, ih, extendSchedule]

/-- STATUS bit by bit [10_state.md R32]. -/
theorem status_getLsbD (s : State) (i : Nat) : s.status.getLsbD i =
    (if i < 1 then s.busy else if i < 3 then s.phase.code.getLsbD (i - 1) else if i < 4 then s.digestValid
      else if i < 5 then s.errIllegal else if i < 6 then s.errMisuse else if i < 7 then s.errCapacity
      else if i < 8 then false else if i < 15 then s.bufLen.getLsbD (i - 8) else false) := by
  simp only [State.status, BitVec.getLsbD_append, BitVec.getLsbD_ofBool]
  by_cases h : i < 15
  · interval_cases i <;> simp
  · have h1 : ¬ i < 1 := by omega
    have h2 : ¬ i < 3 := by omega
    have h3 : ¬ i < 4 := by omega
    have h4 : ¬ i < 5 := by omega
    have h5 : ¬ i < 6 := by omega
    have h6 : ¬ i < 7 := by omega
    have h7 : ¬ i < 8 := by omega
    have h8 : ¬ i - 1 < 2 := by omega
    have h9 : ¬ i - 1 - 2 < 1 := by omega
    have h10 : ¬ i - 1 - 2 - 1 < 1 := by omega
    have h11 : ¬ i - 1 - 2 - 1 - 1 < 1 := by omega
    have h12 : ¬ i - 1 - 2 - 1 - 1 - 1 < 1 := by omega
    have h13 : ¬ i - 1 - 2 - 1 - 1 - 1 - 1 < 1 := by omega
    have h14 : ¬ i - 1 - 2 - 1 - 1 - 1 - 1 - 1 < 7 := by omega
    simp [h, h1, h2, h3, h4, h5, h6, h7, h8, h9, h10, h11, h12, h13, h14]

end Sys2Proof.Machine
end

