-- ==== Sys2Proof/Laws/PerInstr.lean ====
section
/-! SUPPORT. Per-instruction laws of the syntax: the encoding of an instruction fits in its length. -/

namespace Sys2Proof.Machine

theorem commandTableWord_fits (c : Command) : (commandTableWord c).bits < 2 ^ (commandTableWord c).nbits :=
  (encodeCmd c).isLt

theorem readTableWord_fits (a : BitVec 4) (b : BitVec 2) : (readTableWord a b).bits < 2 ^ (readTableWord a b).nbits :=
  Nat.lt_of_lt_of_le (descriptorOf 0 a b).isLt (show 2 ^ 7 ≤ 2 ^ 8 by decide)

theorem writeTableWord_fits (a : BitVec 4) (b : BitVec 2) (w : Word) :
    (writeTableWord a b w).bits < 2 ^ (writeTableWord a b w).nbits :=
  (w ++ 0#1 ++ descriptorOf 1 a b).isLt

end Sys2Proof.Machine

namespace Sys2Proof.Laws.EncodeFits

open Sys2Proof.Machine

/-- The bits of an instruction's encoding fit in its length, 32 for a command word, 8 for a read, 40 for a write
[30_encoding.md R70, R71]. -/
def Statement (i : Instr) : Prop :=
  (encode i).bits < 2 ^ (encode i).nbits ∧ (encode i).nbits ∈ [8, 32, 40]

theorem nop : Statement (.nop) := ⟨commandTableWord_fits _, by simp [encode, commandTableWord]⟩
theorem init : Statement (.init) := ⟨commandTableWord_fits _, by simp [encode, commandTableWord]⟩
theorem update (n : Fin 5) : Statement (.update n) := ⟨commandTableWord_fits _, by simp [encode, commandTableWord]⟩
theorem final : Statement (.final) := ⟨commandTableWord_fits _, by simp [encode, commandTableWord]⟩
theorem illegal (w : Word) : Statement (.illegal w) := ⟨commandTableWord_fits _, by simp [encode, commandTableWord]⟩
theorem wrCmd (b : BitVec 2) (w : Word) : Statement (.wrCmd b w) := ⟨writeTableWord_fits _ _ _, by simp [encode, writeTableWord]⟩
theorem wrData (b : BitVec 2) (w : Word) : Statement (.wrData b w) := ⟨writeTableWord_fits _ _ _, by simp [encode, writeTableWord]⟩
theorem wrIgnoredStatus (x : BitVec 1) (b : BitVec 2) (w : Word) : Statement (.wrIgnoredStatus x b w) := ⟨writeTableWord_fits _ _ _, by simp [encode, writeTableWord]⟩
theorem wrIgnoredLen (x : BitVec 2) (b : BitVec 2) (w : Word) : Statement (.wrIgnoredLen x b w) := ⟨writeTableWord_fits _ _ _, by simp [encode, writeTableWord]⟩
theorem wrIgnoredDigest (x : BitVec 3) (b : BitVec 2) (w : Word) : Statement (.wrIgnoredDigest x b w) := ⟨writeTableWord_fits _ _ _, by simp [encode, writeTableWord]⟩
theorem rdCmd (b : BitVec 2) : Statement (.rdCmd b) := ⟨readTableWord_fits _ _, by simp [encode, readTableWord]⟩
theorem rdData (b : BitVec 2) : Statement (.rdData b) := ⟨readTableWord_fits _ _, by simp [encode, readTableWord]⟩
theorem rdStatus (b : BitVec 2) : Statement (.rdStatus b) := ⟨readTableWord_fits _ _, by simp [encode, readTableWord]⟩
theorem rdReserved (b : BitVec 2) : Statement (.rdReserved b) := ⟨readTableWord_fits _ _, by simp [encode, readTableWord]⟩
theorem rdLenLo (b : BitVec 2) : Statement (.rdLenLo b) := ⟨readTableWord_fits _ _, by simp [encode, readTableWord]⟩
theorem rdLenHi (b : BitVec 2) : Statement (.rdLenHi b) := ⟨readTableWord_fits _ _, by simp [encode, readTableWord]⟩
theorem rdReservedHigh (x : BitVec 1) (b : BitVec 2) : Statement (.rdReservedHigh x b) := ⟨readTableWord_fits _ _, by simp [encode, readTableWord]⟩
theorem rdDigest (i : BitVec 3) (b : BitVec 2) : Statement (.rdDigest i b) := ⟨readTableWord_fits _ _, by simp [encode, readTableWord]⟩

end Sys2Proof.Laws.EncodeFits
end

