-- ==== Sys2Proof/Tests/Slice0.lean ====
section
/-! SUPPORT. Tests against the spec's own examples, and a witness of the hypotheses of each statement. -/

namespace Sys2Proof.Tests

open Sys2Proof.Machine

/-! ### States -/

/-- `n` bytes of 0x61 appended, no block completed or in work. -/
def filled (n : Nat) : State :=
  { State.reset with
    buf := (List.range n).map (fun k => (k, 0x61#8)), bufLen := BitVec.ofNat 7 n, totalLen := BitVec.ofNat 64 n
    phase := .accumulating }

/-- A message of `2 ^ 61 - 64 + n` bytes, its last `n` in the buffer [95_test_vectors.md P5 for `n = 62`]. -/
def nearlyFull (n : Nat) : State := { filled n with totalLen := BitVec.ofNat 64 (2 ^ 61 - 64 + n) }

/-- A finished message of three bytes. -/
def done : State := { State.reset with totalLen := 3, phase := .finalized }

/-- A data block in work at round `r`. -/
def working (r : Nat) : State :=
  { State.reset with eng := .compress, rnd := BitVec.ofNat 7 r, v := iv, totalLen := 64, phase := .accumulating }

/-- The first padding block of a 56-byte message in work at round `r`. -/
def padding (r : Nat) : State :=
  { filled 56 with eng := .compress, rnd := BitVec.ofNat 7 r, v := iv, pad := .pFirst, phase := .finalizing }

/-- The last padding block of a 56-byte message in work at round `r`. -/
def lastBlock (r : Nat) : State := { padding r with pad := .pFinal }

/-- The padding block of "abc" just loaded [95_test_vectors.md 2.3]. -/
def abcBlock : List Byte := [0x61, 0x62, 0x63, 0x80] ++ zeros 52 ++ [0, 0, 0, 0, 0, 0, 0, 0x18]

/-- A state with an input before its next edge. -/
def presenting (s : State) (rst : Bool) (req : Option HostAccess) : State := { s with inputs := [⟨rst, req⟩] }

/-- The state after an instruction. -/
def after (i : Instr) (s : State) : Option State := stateAfter? (exec i s)

/-- STATUS after an instruction. -/
def statusAfter (i : Instr) (s : State) : Option Word := (after i s).map State.status

/-- The value an instruction returns. -/
def readBy (i : Instr) (s : State) : Option Word := (after i s).bind State.rdata

/-! ### Well-formedness -/

/-- 0x32 is the word of UPDATE 3, so no illegal word [30_encoding.md R82]. -/
theorem test_wellFormed_refuses_legal_word : Instr.wellFormed (.illegal 0x32) = false := by decide
theorem test_wellFormed_refuses_each_legal_word :
    legalCommandWords.all (fun w => !Instr.wellFormed (.illegal w)) = true := by decide
theorem test_wellFormed_takes_illegal_word : Instr.wellFormed (.illegal 0x52) = true := by decide

/-! ### Decoding words written out from the encoding tables

Command words: `RSV` 25 bits, `NBYTES` 3, `OP` 4 [30_encoding.md R71]; expected outcomes from 95_test_vectors.md 2.6.
Descriptors: `W` 1 bit, `A` 4, `b` 2 [R70, R81]; expected outcomes from R81 and 95_test_vectors.md section 3. -/

theorem test_decode_nop : decodeTableWord 32 0b0000000000000000000000000_000_0000 = some .nop := by decide
theorem test_decode_init : decodeTableWord 32 0b0000000000000000000000000_000_0001 = some .init := by decide
theorem test_decode_update0 : decodeTableWord 32 0b0000000000000000000000000_000_0010 = some (.update 0) := by decide
theorem test_decode_update4 : decodeTableWord 32 0b0000000000000000000000000_100_0010 = some (.update 4) := by decide
theorem test_decode_final : decodeTableWord 32 0b0000000000000000000000000_000_0011 = some .final := by decide
theorem test_decode_illegal : [0x52, 0x72, 0x13, 0x10, 0x11, 0x04, 0x0f, 0x80, 0x80000001, 0xffffffff].all
    (fun w => decodeTableWord 32 w == some (.illegal (BitVec.ofNat 32 w))) = true := by decide
theorem test_decode_wrCmd : decodeTableWord 40 0x0000003240 = some (.wrCmd 0 0x32) := by decide
theorem test_decode_wrCmd_short : decodeTableWord 8 0b1_0000_11 = some (.wrCmd 3 0) := by decide
theorem test_decode_wrData : decodeTableWord 40 0x6162630044 = some (.wrData 0 0x61626300) := by decide
theorem test_decode_wrIgnoredStatus : decodeTableWord 8 0b1_0011_01 = some (.wrIgnoredStatus 1 1 0) := by decide
theorem test_decode_wrIgnoredLen : decodeTableWord 8 0b1_0110_10 = some (.wrIgnoredLen 2 2 0) := by decide
theorem test_decode_wrIgnoredDigest : decodeTableWord 8 0b1_1101_00 = some (.wrIgnoredDigest 5 0 0) := by decide
theorem test_decode_rdCmd : decodeTableWord 8 0b0_0000_00 = some (.rdCmd 0) := by decide
theorem test_decode_rdData : decodeTableWord 8 0b0_0001_10 = some (.rdData 2) := by decide
/-- Offset 0x0B reads STATUS [95_test_vectors.md 2.10]. -/
theorem test_decode_rdStatus : decodeAccess (.read 0x0B) = .rdStatus 3 := by decide
theorem test_decode_rdReserved : decodeTableWord 8 0b0_0011_00 = some (.rdReserved 0) := by decide
theorem test_decode_rdLenLo : decodeTableWord 8 0b0_0100_00 = some (.rdLenLo 0) := by decide
theorem test_decode_rdLenHi : decodeTableWord 8 0b0_0101_00 = some (.rdLenHi 0) := by decide
theorem test_decode_rdReservedHigh : decodeTableWord 8 0b0_0111_00 = some (.rdReservedHigh 1 0) := by decide
/-- Offset 0x23 reads DIGEST0 [95_test_vectors.md 2.10]. -/
theorem test_decode_rdDigest : decodeAccess (.read 0x23) = .rdDigest 0 3 := by decide
theorem test_decode_rejects : decodeTableWord 16 0 = none ∧ decodeTableWord 8 0x80 = none ∧
    decodeTableWord 8 0x140 = none ∧ decodeTableWord 40 0x0100000008 = none := by decide

/-! ### The functions [95_test_vectors.md 2.1 to 2.5] -/

theorem test_rotr : rotr 0x12345678 7 = 0xf02468ac := by decide
theorem test_bigSigma0 : bigSigma0 0x6a09e667 = 0xce20b47e := by decide
theorem test_bigSigma1 : bigSigma1 0x6a09e667 = 0x55b65510 := by decide
theorem test_smallSigma0 : smallSigma0 0x12345678 = 0xe7fce6ee := by decide
theorem test_smallSigma1 : smallSigma1 0x12345678 = 0xa1f78649 := by decide
theorem test_ch : ch 0xf0f0f0f0 0xffffffff 0 = 0xf0f0f0f0 ∧ ch 0xffffffff 0x12345678 0x9abcdef0 = 0x12345678 := by
  decide
theorem test_maj : maj 0xf0f0f0f0 0xff00ff00 0x0ff00ff0 = 0xfff0fff0 := by decide
theorem test_rom : rom 0 = 0x428a2f98 ∧ rom 15 = 0xc19bf174 ∧ rom 16 = 0xe49b69c1 ∧ rom 63 = 0xc67178f2 := by decide
theorem test_schedule : scheduleWord abcBlock 15 = 0x18 ∧ scheduleWord abcBlock 16 = 0x61626380 ∧
    scheduleWord abcBlock 17 = 0x000f0000 ∧ scheduleWord abcBlock 18 = 0x7da86405 := by decide
/-- Round 0 of the "abc" block [95_test_vectors.md 2.4]. -/
theorem test_round0 : (roundStep (load abcBlock .pFinal iv State.reset)).v =
    ⟨0x5d6aebcd, 0x6a09e667, 0xbb67ae85, 0x3c6ef372, 0xfa2a4622, 0x510e527f, 0x9b05688c, 0x1f83d9ab⟩ := by decide
theorem test_length_field : (lengthField (BitVec.ofNat 64 maxBytes)).toOption =
    some [0xff, 0xff, 0xff, 0xff, 0xff, 0xff, 0xff, 0xf8] := by decide
theorem test_padA_55 : padA (List.replicate 55 0x61) [0, 0, 0, 0, 0, 0, 1, 0xb8] =
    List.replicate 55 0x61 ++ [0x80, 0, 0, 0, 0, 0, 0, 1, 0xb8] := by decide
theorem test_padA_56 : padA (List.replicate 56 0x61) [0, 0, 0, 0, 0, 0, 1, 0xc0] =
    List.replicate 56 0x61 ++ [0x80, 0, 0, 0, 0, 0, 0, 0] := by decide
theorem test_pack : packBytes [0x61, 0x62, 0x63] = 0x61626300 := by decide
theorem test_hash_lines : asmHash [0x61, 0x62, 0x63] =
    [.wr 0 1, .wr 4 0x61626300, .wr 0 0x32, .wr 0 3, .wr 0 0, .rd 0x20, .rd 0x24, .rd 0x28, .rd 0x2c,
      .rd 0x30, .rd 0x34, .rd 0x38, .rd 0x3c] := by decide

/-! ### The instructions [95_test_vectors.md 2.7, 2.8, 2.10, 2.11] -/

theorem test_nop : statusAfter .nop State.reset = some 0 := by decide
theorem test_update_abc : statusAfter (.update 3) { State.reset with data := 0x61626300 } = some 0x302 := by decide
/-- The spill: 62 bytes, then 62 63 64 65; STATUS 0x203, two bytes left at addresses 0 and 1. -/
theorem test_update_spill :
    ((after (.update 4) { filled 62 with data := 0x62636465 }).map fun t =>
      (t.status, Memory.readRun t.buf 0 2, t.win.w15)) = some (0x203, some [0x64, 0x65], 0x61616263) := by decide
theorem test_final_abc : ((after .final
      { State.reset with buf := [(0, 0x61), (1, 0x62), (2, 0x63)], bufLen := 3, totalLen := 3, phase := .accumulating }).map
    fun t => (t.status, t.win)) = some (0x307, parseBlock abcBlock) := by decide
theorem test_final_empty : statusAfter .final State.reset = some 7 := by decide
theorem test_final_misuse : statusAfter .final done = some 0x2c := by decide
theorem test_update_misuse : statusAfter (.update 0) done = some 0x2c := by decide
theorem test_illegal : statusAfter (.illegal 0x52) done = some 0x1c := by decide
theorem test_init : (after .init { done with errIllegal := true, errMisuse := true }).map
    (fun t => (t.status, t.totalLen, t.h)) = some (0, 0, iv) := by decide
theorem test_wrCmd : statusAfter (.wrCmd 0 0x52) State.reset = some 0x10 := by decide
theorem test_wrCmd_held : (after (.wrCmd 0 1) (working 5)).map (fun t => (t.rnd, t.ack)) = some (6, false) := by decide
theorem test_capacity : statusAfter (.update 4) (nearlyFull 62) = some 0x3e42 := by decide
theorem test_capacity_last : (after (.update 1) { nearlyFull 62 with errCapacity := true }).map
    (fun t => (t.status, t.lenLo, t.lenHi)) = some (0x3f42, 0xffffffff, 0x1fffffff) := by decide
theorem test_wrData : (after (.wrData 0 0x61626364) State.reset).bind (readBy (.rdData 0)) = some 0x61626364 := by decide
theorem test_wrIgnoredStatus : statusAfter (.wrIgnoredStatus 0 0 0xffffffff) done = some 0x0c := by decide
theorem test_wrIgnoredLen : (after (.wrIgnoredLen 0 0 0x12345678) done).map State.lenLo = some 3 := by decide
theorem test_wrIgnoredDigest : (after (.wrIgnoredDigest 0 0 0) done).map State.h = some iv := by decide
theorem test_rdCmd : readBy (.rdCmd 0) done = some 0 := by decide
theorem test_rdStatus : readBy (.rdStatus 3) done = some 0x0c := by decide
theorem test_rdReserved : readBy (.rdReserved 0) done = some 0 := by decide
theorem test_rdLenLo : readBy (.rdLenLo 0) (nearlyFull 62) = some 0xfffffffe := by decide
theorem test_rdLenHi : readBy (.rdLenHi 0) (nearlyFull 62) = some 0x1fffffff := by decide
theorem test_rdReservedHigh : readBy (.rdReservedHigh 1 0) done = some 0 := by decide
theorem test_rdDigest : readBy (.rdDigest 1 0) done = some 0xbb67ae85 ∧ readBy (.rdDigest 1 0) (filled 3) = some 0 := by
  decide
/-- A read during compression returns the value before the edge and the engine steps [44_register_access.md R170]. -/
theorem test_read_while_busy :
    (after (.rdStatus 0) (working 5)).map (fun t => (t.rdata, t.rnd)) = some (some 3, 6) := by decide
theorem test_reset_edge : (stateAfter? (step (presenting (working 5) true none))).map (fun t => (t.status, t.h, t.data)) =
    some (0, iv, 0) := by decide
theorem test_fetch_word : (stateAfter? (step (State.reset.withFetchWord 32 0x52))).map State.status = some 0x10 := by decide
theorem test_withdrawn : step { State.reset with request := some (.read 0) , inputs := [⟨false, none⟩] } =
    .refused .requestWithdrawn := by rfl

/-! ### Witnesses: for each statement with hypotheses, concrete states and operands that meet all of them together -/

/-- The invariant from the checks `decide` can make. -/
theorem reset_inv : State.reset.Inv := by constructor <;> decide
theorem filled_inv_0 : (filled 0).Inv := by constructor <;> decide
theorem filled_inv_55 : (filled 55).Inv := by constructor <;> decide
theorem filled_inv_56 : (filled 56).Inv := by constructor <;> decide
theorem filled_inv_63 : (filled 63).Inv := by constructor <;> decide
theorem nearlyFull_inv : (nearlyFull 63).Inv := by constructor <;> decide
theorem done_inv : done.Inv := by constructor <;> decide
theorem working_inv_0 : (working 0).Inv := by constructor <;> decide
theorem working_inv_64 : (working 64).Inv := by constructor <;> decide
theorem padding_inv_64 : (padding 64).Inv := by constructor <;> decide
theorem lastBlock_inv_64 : (lastBlock 64).Inv := by constructor <;> decide

theorem working_engineOk : (working 64).EngineOk := fun _ => by decide
theorem padding_engineOk : (padding 64).EngineOk := fun _ => by decide

theorem witness_ResetEdgeGivesResetValues :
    (presenting (working 5) true (some (.write 0 1))).holdsRequest ∧
      (presenting (working 5) true (some (.write 0 1))).nextIn.rst = true := by
  constructor <;> rfl

theorem witness_InitGivesTheResetState : (done.Inv ∧ done.eng = .idle) ∧ (filled 63).Inv ∧ (filled 63).eng = .idle :=
  ⟨⟨done_inv, rfl⟩, filled_inv_63, rfl⟩

theorem witness_StepRunsThePresentedAccess :
    ((presenting done false (some (.read 8))).holdsRequest ∧
      (presenting done false (some (.read 8))).nextIn = ⟨false, some (.read 8)⟩) ∧
    (presenting done false none).holdsRequest ∧ (presenting done false none).nextIn = ⟨false, none⟩ := by
  refine ⟨⟨?_, ?_⟩, ?_, ?_⟩ <;> rfl

theorem witness_CmdWritePerformsTheDecodedCommand : done.Inv ∧ done.eng = .idle ∧ decodeCmd 0x52 = .illegal 0x52 :=
  ⟨done_inv, rfl, by decide⟩

theorem witness_FetchWordRunsItsInstruction :
    decodeTableWord 8 0x08 = some (.rdStatus 0) ∧ decodeTableWord 32 0x42 = some (.update 4) ∧
      decodeTableWord 40 0xffffffff47 = some (.wrData 3 0xffffffff) := by decide

theorem witness_OnlyWithdrawnRequestsAreRefused :
    (∃ s : State, step s = .refused .requestWithdrawn ∧ s.request = some (.read 0) ∧ s.nextIn.req ≠ some (.read 0)) :=
  ⟨{ presenting State.reset false none with request := some (.read 0) }, rfl, rfl, by decide⟩

theorem witness_HandshakeFollowsItsFormula :
    (∃ t, step (presenting done false (some (.read 8))) = .next t ∧ t.ack = true) ∧
    (∃ t, step (presenting (working 0) false (some (.write 0 1))) = .next t ∧ t.ack = false) :=
  ⟨⟨_, rfl, rfl⟩, _, rfl, rfl⟩

theorem witness_LegalCommandWordsAreTheEight :
    (0x52#32 ∉ [0x00000000#32, 0x00000001, 0x00000003, 0x02, 0x12, 0x22, 0x32, 0x42]) ∧ done.eng = .idle := by decide

theorem witness_DescriptorRowsDecodeToTheirAccess :
    (0x43#7 &&& 0x7C = 0x40) ∧ (0x47#7 &&& 0x7C = 0x44) ∧ (0x48#7 &&& 0x78 = 0x48) ∧ (0x4F#7 &&& 0x78 = 0x48) ∧
    (0x50#7 &&& 0x70 = 0x50) ∧ (0x5F#7 &&& 0x70 = 0x50) ∧ (0x60#7 &&& 0x60 = 0x60) ∧ (0x7F#7 &&& 0x60 = 0x60) ∧
    (0x03#7 &&& 0x7C = 0x00) ∧ (0x07#7 &&& 0x7C = 0x04) ∧ (0x0B#7 &&& 0x7C = 0x08) ∧ (0x0F#7 &&& 0x7C = 0x0C) ∧
    (0x13#7 &&& 0x7C = 0x10) ∧ (0x17#7 &&& 0x7C = 0x14) ∧ (0x18#7 &&& 0x78 = 0x18) ∧ (0x1F#7 &&& 0x78 = 0x18) ∧
    (0x20#7 &&& 0x60 = 0x20) ∧ (0x3F#7 &&& 0x60 = 0x20) := by decide

theorem witness_DecodeOfEncodeIsTheInstruction :
    Instr.wellFormed (.illegal 0xffffffff) = true ∧ Instr.wellFormed (.update 4) = true ∧
      Instr.wellFormed (.wrIgnoredDigest 7 3 0xffffffff) = true ∧ Instr.wellFormed (.rdDigest 7 3) = true := by decide

theorem witness_EncodeOfDecodeIsTheWord :
    decodeTableWord 32 0xffffffff = some (.illegal 0xffffffff) ∧ decodeTableWord 8 0x7f = some (.wrIgnoredDigest 7 3 0) ∧
      decodeTableWord 40 0xffffffff7f = some (.wrIgnoredDigest 7 3 0xffffffff) := by decide

theorem witness_NopChangesNothing :
    done.eng = .idle ∧ ∃ t, exec .nop done = .next t ∧ t.ack = true := ⟨rfl, _, rfl, rfl⟩

theorem witness_InitStartsANewMessage : done.eng = .idle ∧ (filled 63).eng = .idle := by decide

/-- At the last free byte, at the largest count, and with no byte at the largest message. -/
theorem witness_UpdateAppendsToTheBuffer :
    ((filled 55).Inv ∧ (filled 55).eng = .idle ∧ (filled 55).phase ≠ .finalized ∧
      (filled 55).totalLen.toNat + (4 : Fin 5).val ≤ maxBytes ∧ (filled 55).bufLen.toNat + (4 : Fin 5).val < 64) ∧
    ((nearlyFull 63).Inv ∧ (nearlyFull 63).eng = .idle ∧ (nearlyFull 63).phase ≠ .finalized ∧
      (nearlyFull 63).totalLen.toNat + (0 : Fin 5).val ≤ maxBytes ∧ (nearlyFull 63).bufLen.toNat + (0 : Fin 5).val < 64) :=
  ⟨⟨filled_inv_55, by decide⟩, nearlyFull_inv, by decide⟩

theorem witness_UpdateCompletesABlock :
    (filled 63).Inv ∧ (filled 63).eng = .idle ∧ (filled 63).phase ≠ .finalized ∧
      ((filled 63).totalLen.toNat + (1 : Fin 5).val ≤ maxBytes ∧ 64 ≤ (filled 63).bufLen.toNat + (1 : Fin 5).val) ∧
      ((filled 63).totalLen.toNat + (4 : Fin 5).val ≤ maxBytes ∧ 64 ≤ (filled 63).bufLen.toNat + (4 : Fin 5).val) :=
  ⟨filled_inv_63, by decide⟩

theorem witness_FinalStartsPadding :
    ((padding 64).Inv ∧ ∃ t, step (padding 64) = .next t ∧ (padding 64).phase = .finalizing ∧ t.phase = .finalizing) ∧
    ((filled 55).Inv ∧ (filled 55).eng = .idle ∧ (filled 55).phase ≠ .finalized ∧ (filled 55).bufLen.toNat ≤ 55) ∧
    ((filled 56).Inv ∧ (filled 56).eng = .idle ∧ (filled 56).phase ≠ .finalized ∧ 56 ≤ (filled 56).bufLen.toNat) ∧
    ((filled 63).Inv ∧ (filled 63).eng = .idle ∧ (filled 63).phase ≠ .finalized ∧ 56 ≤ (filled 63).bufLen.toNat) :=
  ⟨⟨padding_inv_64, _, rfl, rfl, rfl⟩, ⟨filled_inv_55, by decide⟩, ⟨filled_inv_56, by decide⟩, filled_inv_63, by decide⟩

theorem witness_MisuseAfterFinalizeOnlySetsItsFlag :
    done.eng = .idle ∧ done.phase = .finalized ∧ (∃ n, Instr.update 0 = .update n) ∧ Instr.final = .final :=
  ⟨rfl, rfl, ⟨0, rfl⟩, rfl⟩

theorem witness_CapacityErrorOnlySetsItsFlag :
    ((nearlyFull 63).eng = .idle ∧ (nearlyFull 63).phase = .accumulating ∧
      2 ^ 61 - 1 < (nearlyFull 63).totalLen.toNat + (1 : Fin 5).val) ∧
    ({ nearlyFull 63 with phase := .fresh } : State).phase = .fresh := by decide

theorem witness_IllegalWordOnlySetsItsFlag :
    (0x80#32).extractLsb' 7 25 ≠ 0 ∧ 4 ≤ ((0x04#32).extractLsb' 0 4).toNat ∧
      (((0x52#32).extractLsb' 0 4).toNat = 2 ∧ 5 ≤ ((0x52#32).extractLsb' 4 3).toNat) ∧
      (((0x13#32).extractLsb' 0 4).toNat ≠ 2 ∧ ((0x13#32).extractLsb' 4 3).toNat ≠ 0) ∧ done.eng = .idle := by decide

theorem witness_ErrorsAreReportedInPriority :
    done.eng = .idle ∧ decodeCmd 0x52 = .illegal 0x52 ∧ (decodeCmd 0x03 = .final ∧ done.phase = .finalized) ∧
      (decodeCmd 0x02 = .update 0) ∧
      ((nearlyFull 63).eng = .idle ∧ decodeCmd 0x12 = .update 1 ∧ (nearlyFull 63).phase ≠ .finalized ∧
        maxBytes < (nearlyFull 63).totalLen.toNat + (1 : Fin 5).val) := by decide

theorem witness_CommandsAreHeldWhileBusy :
    ((working 64).eng = .compress ∧ (working 64).EngineOk) ∧ ((padding 64).eng = .compress ∧ (padding 64).EngineOk) ∧
      ∃ b w, Instr.wrCmd 0 1 = .wrCmd b w :=
  ⟨⟨rfl, working_engineOk⟩, ⟨rfl, padding_engineOk⟩, 0, 1, rfl⟩

theorem witness_RoundStepComputesItsRule :
    ∀ s ∈ [working 0, working 63, presenting (working 5) false (some (.write 4 9)),
        presenting (working 5) false (some (.write 0 1))],
      s.eng = .compress ∧ s.rnd.toNat < 64 ∧ s.withdraws s.nextIn = false ∧ s.nextIn.rst = false := by decide

theorem witness_FeedForwardCompletesByPad :
    (∀ s ∈ [working 64, padding 64, lastBlock 64, presenting (lastBlock 64) false (some (.write 4 9))],
      s.eng = .compress ∧ s.rnd = 64 ∧ s.totalLen.toNat ≤ maxBytes ∧ s.withdraws s.nextIn = false ∧
        s.nextIn.rst = false) ∧
    (working 64).pad = .pNone ∧ (padding 64).pad = .pFirst ∧ (lastBlock 64).pad = .pFinal ∧
    ∀ addr w, (working 64).nextIn.req ≠ some (.write addr w) :=
  ⟨by decide, rfl, rfl, rfl, by intro _ _ h; cases h⟩

theorem witness_AccessesDoNotDisturbTheEngine : (working 64).EngineOk ∧ (padding 64).EngineOk ∧ done.EngineOk :=
  ⟨working_engineOk, padding_engineOk, inv_engineOk done_inv⟩

/-- The "abc" block just loaded from `IV`. -/
def abcLoaded : State := load abcBlock .pFinal iv { filled 3 with phase := .finalizing }

theorem witness_WindowHoldsTheSchedule :
    abcLoaded.eng = .compress ∧ abcLoaded.rnd = 0 ∧ abcLoaded.win = parseBlock abcBlock ∧ abcLoaded.inputs = [] ∧
      abcLoaded.request = none ∧ 64 ≤ 64 := by decide

theorem witness_DatapathComputesCompress :
    abcLoaded.eng = .compress ∧ abcLoaded.rnd = 0 ∧ abcLoaded.win = parseBlock abcBlock ∧ abcLoaded.v = abcLoaded.h ∧
      abcLoaded.totalLen.toNat ≤ maxBytes ∧ abcLoaded.inputs = [] ∧ abcLoaded.request = none := by decide

theorem witness_BusyEdgesCountDown :
    (padding 64).Inv ∧ (padding 64).busy = true ∧ (padding 64).nextIn.rst = false ∧ (∃ t, step (padding 64) = .next t) :=
  ⟨padding_inv_64, rfl, rfl, _, rfl⟩

theorem witness_CommandsStartTheirBusyEdges :
    ((filled 63).Inv ∧ (filled 63).eng = .idle) ∧ (done.Inv ∧ done.eng = .idle) ∧
      (nearlyFull 63).Inv ∧ (nearlyFull 63).eng = .idle :=
  ⟨⟨filled_inv_63, rfl⟩, ⟨done_inv, rfl⟩, nearlyFull_inv, rfl⟩

theorem witness_HeldCommandIsPerformed :
    ∃ s : State, s.Inv ∧ s.eng = .compress ∧ s.inputs = [] ∧ s.request = some (.write 3 0x42) ∧
      (3 : BitVec 6).extractLsb' 2 4 = 0 :=
  ⟨{ padding 0 with request := some (.write 3 0x42) }, by constructor <;> decide, rfl, rfl, rfl, by decide⟩

theorem witness_ReadsAndIgnoredWrites : State.reset.EngineOk ∧ done.EngineOk ∧ (working 0).EngineOk ∧ (padding 64).EngineOk :=
  ⟨inv_engineOk reset_inv, inv_engineOk done_inv, inv_engineOk working_inv_0, padding_engineOk⟩

theorem witness_ReadsOfDigest : done.phase = .finalized ∧ (filled 3).phase ≠ .finalized := by decide

theorem witness_ReadDataByAddress :
    (0x03#6).toNat / 4 = 0 ∧ (0x07#6).toNat / 4 = 1 ∧ (0x0B#6).toNat / 4 = 2 ∧ (0x0F#6).toNat / 4 = 3 ∧
      (0x10#6).toNat / 4 = 4 ∧ (0x17#6).toNat / 4 = 5 ∧ (0x18#6).toNat / 4 = 6 ∧ (0x1F#6).toNat / 4 = 7 ∧
      (0x20#6).toNat / 4 = 8 + 0 ∧ (0x3F#6).toNat / 4 = 8 + 7 := by decide

theorem witness_StatusIsComposed : (padding 64).EngineOk ∧ done.EngineOk := ⟨padding_engineOk, inv_engineOk done_inv⟩

theorem witness_StatusCombinationsNeverOccur :
    (lastBlock 64).Inv ∧ ∃ t, step (lastBlock 64) = .next t ∧ t.phase = .finalized :=
  ⟨lastBlock_inv_64, _, rfl, rfl⟩

theorem witness_DigestIsFormattedBigEndian :
    done.digestValidOut = true ∧ done.phase = .finalized ∧ (filled 3).digestValidOut = false := by decide

theorem witness_StepKeepsTheInvariant :
    ((lastBlock 64).Inv ∧ ∃ t, step (lastBlock 64) = .next t) ∧
    (presenting (filled 63) false (some (.write 0 0x42))).Inv ∧
      ∃ t, step (presenting (filled 63) false (some (.write 0 0x42))) = .next t :=
  ⟨⟨lastBlock_inv_64, _, rfl⟩, by constructor <;> decide, _, rfl⟩

theorem witness_RunsNeverFault : (padding 64).Inv ∧ (padding 64).holdsRequest := ⟨padding_inv_64, rfl⟩

/-- A state whose next edge performs a command. -/
def commanding (s : State) (c : Command) : State := presenting s false (some (.write 0 (encodeCmd c)))

theorem witness_HashWordsHaveThreeWriters :
    ((commanding done .init).performs .init ∧ ∃ t, step (commanding done .init) = .next t) ∧
    (∃ t, step (working 64) = .next t ∧ t.h ≠ (working 64).h) ∧
    ∃ t, step (presenting (working 5) true none) = .next t ∧ (presenting (working 5) true none).nextIn.rst = true :=
  ⟨⟨⟨rfl, rfl, _, rfl, 0, 1, by decide, by decide⟩, _, rfl⟩, ⟨_, rfl, by decide⟩, _, rfl, rfl⟩

theorem witness_PhaseTransitionsAreTheTable :
    ((commanding State.reset (.update 4)).Inv ∧ (commanding State.reset (.update 4)).performs (.update 4) ∧
      (commanding State.reset (.update 4)).phase = .fresh ∧ ∃ t, step (commanding State.reset (.update 4)) = .next t) ∧
    ((commanding (filled 63) .final).Inv ∧ (commanding (filled 63) .final).performs .final ∧
      (commanding (filled 63) .final).phase = .accumulating ∧ ∃ t, step (commanding (filled 63) .final) = .next t) ∧
    ((lastBlock 64).Inv ∧ (lastBlock 64).nextIn.rst = false ∧ (lastBlock 64).eng = .compress ∧
      (lastBlock 64).rnd = 64 ∧ (lastBlock 64).pad = .pFinal ∧
      ∃ t, step (lastBlock 64) = .next t ∧ t.phase ≠ (lastBlock 64).phase) :=
  ⟨⟨by constructor <;> decide, ⟨rfl, rfl, _, rfl, 0, 0x42, by decide, by decide⟩, rfl, _, rfl⟩,
    ⟨by constructor <;> decide, ⟨rfl, rfl, _, rfl, 0, 3, by decide, by decide⟩, rfl, _, rfl⟩,
    lastBlock_inv_64, rfl, rfl, rfl, rfl, _, rfl, by decide⟩

theorem witness_ErrorFlagsAreSticky :
    ((commanding done (.illegal 0x52)).performs (.illegal 0x52) ∧
      ∃ t, step (commanding done (.illegal 0x52)) = .next t) ∧
    ((commanding done .final).performs .final ∧ (commanding done .final).phase = .finalized ∧
      ∃ t, step (commanding done .final) = .next t) ∧
    ((commanding (nearlyFull 63) (.update 1)).performs (.update 1) ∧
      maxBytes < (commanding (nearlyFull 63) (.update 1)).totalLen.toNat + (1 : Fin 5).val ∧
      ∃ t, step (commanding (nearlyFull 63) (.update 1)) = .next t) :=
  ⟨⟨⟨rfl, rfl, _, rfl, 0, 0x52, by decide, by decide⟩, _, rfl⟩,
    ⟨⟨rfl, rfl, _, rfl, 0, 3, by decide, by decide⟩, rfl, _, rfl⟩,
    ⟨rfl, rfl, _, rfl, 0, 0x12, by decide, by decide⟩, by decide, _, rfl⟩

theorem witness_DataHasTwoWriters :
    (∃ t, step (presenting (working 5) false (some (.write 7 9))) = .next t) ∧
      decodeAccess (.write 7 9) = .wrData 3 9 ∧
    (∃ t, step (presenting (working 5) true none) = .next t) ∧
    (∃ t, step (working 5) = .next t) ∧ ¬∃ a b w, (working 5).nextIn.req = some a ∧ decodeAccess a = .wrData b w :=
  ⟨⟨_, rfl⟩, by decide, ⟨_, rfl⟩, ⟨_, rfl⟩, by rintro ⟨a, _, _, ha, _⟩; cases ha⟩

theorem witness_ByteCountIsOfAcceptedUpdates :
    ((commanding (filled 63) (.update 4)).Inv ∧ (commanding (filled 63) (.update 4)).performs (.update 4) ∧
      (commanding (filled 63) (.update 4)).phase ≠ .finalized ∧
      (commanding (filled 63) (.update 4)).totalLen.toNat + (4 : Fin 5).val ≤ maxBytes ∧
      ∃ t, step (commanding (filled 63) (.update 4)) = .next t) ∧
    ((working 64).Inv ∧ (∀ c, ¬(working 64).performs c) ∧ (working 64).nextIn.rst = false ∧
      ∃ t, step (working 64) = .next t) :=
  ⟨⟨by constructor <;> decide, ⟨rfl, rfl, _, rfl, 0, 0x42, by decide, by decide⟩, by decide, by decide, _, rfl⟩,
    working_inv_64, fun c => not_performs_busy rfl c, rfl, _, rfl⟩

theorem witness_OnlyUpdateStoresToTheBuffer :
    (∃ t, exec .init (filled 63) = .next t) ∧ (∀ n, Instr.init ≠ .update n) ∧
      (∀ b w n, Instr.init = .wrCmd b w → decodeCmd w ≠ .update n) :=
  ⟨⟨_, rfl⟩, by simp, by simp⟩

theorem witness_StaleBytesNeverMatter :
    (∀ k < State.reset.bufLen.toNat, Memory.readByte [(5, 0xff)] k = Memory.readByte State.reset.buf k) ∧
      (∃ t, exec (.update 4) State.reset = .next t) :=
  ⟨by intro k hk; simp [State.reset] at hk, _, rfl⟩

theorem witness_PushAbsorbsItsBytes :
    State.reset.Inv ∧ State.reset.Quiet ∧ State.reset.Absorbed [] ∧
      ([] : List Byte).length + (0x61626300, (3 : Fin 5)).2.val ≤ maxBytes :=
  ⟨reset_inv, ⟨rfl, rfl, rfl⟩, ⟨rfl, rfl, rfl, rfl, .inl rfl⟩, by decide⟩

theorem witness_PushCompletesABlock :
    (filled 63).Inv ∧ (filled 63).Quiet ∧ (filled 63).Absorbed (List.replicate 63 0x61) ∧
      (List.replicate 63 (0x61#8)).length + (0x61626364, (4 : Fin 5)).2.val ≤ maxBytes :=
  ⟨filled_inv_63, ⟨rfl, rfl, rfl⟩, ⟨by decide, by decide, by decide, by decide, .inr rfl⟩, by decide⟩

theorem witness_FinishGivesTheDigest :
    (filled 56).Inv ∧ (filled 56).Quiet ∧ (filled 56).Absorbed (List.replicate 56 0x61) :=
  ⟨filled_inv_56, ⟨rfl, rfl, rfl⟩, by decide, by decide, by decide, by decide, .inr rfl⟩

theorem witness_DigestDependsOnlyOnTheBytes :
    done.Inv ∧ done.Quiet ∧ ([(0x61626300, 2), (0x63000000, 0), (0x63000000, 1)].flatMap Push.bytes).length ≤ maxBytes :=
  ⟨done_inv, ⟨rfl, rfl, rfl⟩, by decide⟩

theorem witness_ScheduleFollowsItsRecurrence : 15 < 16 ∧ 16 ≤ 16 := by decide

theorem witness_BitFunctionsAreBitwise : (1 ≤ 31 ∧ 31 ≤ 31 ∧ 31 < 32) ∧ 1 ≤ 1 ∧ 0 < 32 := by decide

theorem witness_PackedBytesAreTheOperand : ([0x61, 0x62, 0x63, 0x64] : List Byte).length < 5 ∧ ([] : List Byte).length < 5 := by
  decide

end Sys2Proof.Tests
end

section
/-! PROOFS. The step and the access presented, the engine's run with nothing on the ports, the message schedule, and the datapath over a whole block. -/

namespace Sys2Proof.Machine

/-! ### The step runs the access presented -/

/-- A step that is neither refused nor a reset runs the access presented, at the state that has taken the input. -/
theorem step_access {s : State} {a : HostAccess} (hh : s.holdsRequest) (hr : s.nextIn.rst = false)
    (hq : s.nextIn.req = some a) : step s = exec (decodeAccess a) (s.present s.nextIn) := by
  rw [State.holdsRequest] at hh
  simp only [step, hh, hr, hq, Bool.false_eq_true, if_false]

/-- A step that is neither refused nor a reset and has no access is the engine's alone. -/
theorem step_noAccess {s : State} (hh : s.holdsRequest) (hr : s.nextIn.rst = false)
    (hq : s.nextIn.req = none) : step s = idleEdge (s.present s.nextIn) := by
  rw [State.holdsRequest] at hh
  simp only [step, hh, hr, hq, Bool.false_eq_true, if_false]

/-- Settles O4, by the two cases of the request on the ports. -/
theorem stepRunsThePresentedAccess : Obligations.StepRunsThePresentedAccess := by
  refine ⟨fun s a hh hn => ?_, fun s hh hn => ?_⟩
  · rw [step_access (a := a) hh (by rw [hn]) (by rw [hn]), hn]
    rfl
  · rw [step_noAccess hh (by rw [hn]) (by rw [hn]), hn]
    rfl

/-! ### The completion of a compression -/

/-- A data block stops the engine [43_streaming_driver.md R144]. -/
theorem complete_pNone {s : State} (h : s.pad = .pNone) : complete s = .ok (stopEngine s) := by
  simp only [complete, h]

/-- The first padding block is followed by PadB [43_streaming_driver.md R144]. -/
theorem complete_pFirst {s : State} {lb : List Byte} (h : s.pad = .pFirst) (hl : lengthField s.totalLen = .ok lb) :
    complete s = .ok (load (padB lb) .pFinal s.h s) := by
  simp only [complete, h, hl, bind, Except.bind]

/-- The last padding block finalizes [43_streaming_driver.md R144]. -/
theorem complete_pFinal {s : State} (h : s.pad = .pFinal) :
    complete s = .ok { stopEngine s with phase := .finalized, bufLen := 0, pad := .pNone } := by
  simp only [complete, h]

/-! ### Runs with nothing on the ports -/

theorem andThen_next (s : State) (f : State → Host.Outcome State Fault Refusal) : andThen (.next s) f = f s := rfl

/-- The engine reads neither `ack` nor the value last read. -/
theorem engineEdge_notAcked {s t : State} (h : engineEdge s = .ok t) : engineEdge (notAcked s) = .ok (notAcked t) := by
  rcases engineEdge_inv h with ⟨he, rfl⟩ | ⟨he, hr, rfl⟩ | ⟨he, hr, hc⟩
  · exact engineEdge_idle he
  · exact engineEdge_round he hr
  · rw [engineEdge_feedForward (s := notAcked s) he hr]
    rcases complete_inv hc with ⟨hp, rfl⟩ | ⟨hp, lb, hl, rfl⟩ | ⟨hp, rfl⟩
    · exact complete_pNone hp
    · exact complete_pFirst hp hl
    · exact complete_pFinal hp

theorem engineEdges_succ {s t : State} (n : Nat) (h : engineEdge s = .ok t) :
    engineEdges (n + 1) s = engineEdges n t := by
  simp only [engineEdges, h]

/-- A run of the engine that answers a state made its first step. -/
theorem engineEdges_succ_inv {s t : State} {n : Nat} (h : engineEdges (n + 1) s = .ok t) :
    ∃ u, engineEdge s = .ok u ∧ engineEdges n u = .ok t := by
  cases hs : engineEdge s with
  | ok u => exact ⟨u, rfl, by rwa [engineEdges_succ n hs] at h⟩
  | error r => simp only [engineEdges, hs] at h; cases h

/-- A run of the engine over `m + n` edges is one over `m` and then one over `n`. -/
theorem engineEdges_add {s t : State} {m : Nat} (n : Nat) (h : engineEdges m s = .ok t) :
    engineEdges (m + n) s = engineEdges n t := by
  induction m generalizing s with
  | zero => cases h; rw [Nat.zero_add]
  | succ m ih =>
    obtain ⟨u, hs, h⟩ := engineEdges_succ_inv h
    rw [Nat.succ_add, engineEdges_succ (m + n) hs, ih h]

theorem engineEdges_one (s : State) : engineEdges 1 s = engineEdge s := by
  cases hs : engineEdge s <;> simp only [engineEdges, hs]

/-- An idle engine stays as it is [42_block_compressor.md R129]. -/
theorem engineEdges_idle {s : State} (n : Nat) (h : s.eng = .idle) : engineEdges n s = .ok s := by
  induction n with
  | zero => rfl
  | succ n ih => rw [engineEdges_succ n (engineEdge_idle h), ih]

theorem engineEdges_notAcked {s t : State} {n : Nat} (h : engineEdges n s = .ok t) :
    engineEdges n (notAcked s) = .ok (notAcked t) := by
  induction n generalizing s with
  | zero => cases h; rfl
  | succ n ih =>
    obtain ⟨u, hs, h⟩ := engineEdges_succ_inv h
    rw [engineEdges_succ n (engineEdge_notAcked hs), ih h]

/-- What no run of the engine writes. -/
theorem engineEdges_frame {s t : State} {n : Nat} (h : engineEdges n s = .ok t) :
    t.buf = s.buf ∧ t.totalLen = s.totalLen ∧ t.data = s.data ∧ t.inputs = s.inputs ∧ t.request = s.request := by
  induction n generalizing s with
  | zero => cases h; simp
  | succ n ih =>
    obtain ⟨u, hs, h⟩ := engineEdges_succ_inv h
    obtain ⟨hbuf, htotal, hdata, -, -, -, hinputs, hrequest, -⟩ := engineEdge_frame hs
    simpa [hbuf, htotal, hdata, hinputs, hrequest] using ih h

/-- With nothing on the ports the machine's steps are the engine's, and no edge acks. -/
theorem steps_alone {s t : State} {n : Nat} (hi : s.inputs = []) (hr : s.request = none)
    (h : engineEdges (n + 1) s = .ok t) : steps (n + 1) s = .next (notAcked t) := by
  induction n generalizing s t with
  | zero =>
    rw [engineEdges_one] at h
    rw [steps, step_alone hi hr, idleEdge_ok h]
    rfl
  | succ n ih =>
    obtain ⟨u, hs, h⟩ := engineEdges_succ_inv h
    obtain ⟨-, -, -, -, -, -, hui, hur, -, -⟩ := engineEdge_frame hs
    rw [steps, step_alone hi hr, idleEdge_ok hs, andThen_next]
    exact ih (t := notAcked t) (hui.trans hi) (hur.trans hr) (engineEdges_notAcked h)

/-! ### The message schedule -/

/-- Extending by one more word puts the next schedule word in front. -/
theorem extendSchedule_succ (l : List Word) (n : Nat) :
    extendSchedule l (n + 1) = nextScheduleWord (extendSchedule l n) :: extendSchedule l n := by
  rw [extendSchedule_add]
  rfl

/-- A schedule word is the same in every extension long enough to hold it. -/
theorem extendSchedule_reverse_getElem? (b : List Byte) {i n : Nat} (h : i < 16 + n) :
    (extendSchedule (blockWords b).reverse n).reverse[i]? = some (scheduleWord b i) := by
  have hlen : ∀ m, (extendSchedule (blockWords b).reverse m).reverse.length = 16 + m := fun m => by
    simp [blockWords]
  have hext : ∀ m k, i < 16 + m → (extendSchedule (blockWords b).reverse (m + k)).reverse[i]? =
      (extendSchedule (blockWords b).reverse m).reverse[i]? := by
    intro m k hm
    induction k with
    | zero => rfl
    | succ k ih =>
      rw [← Nat.add_assoc, extendSchedule_succ, List.reverse_cons,
        List.getElem?_append_left (by rw [hlen]; omega), ih]
  have hw : (extendSchedule (blockWords b).reverse (i + 1)).reverse[i]? = some (scheduleWord b i) := by
    rw [scheduleWord, List.getD_eq_getElem?_getD, List.getElem?_eq_getElem (by rw [hlen]; omega)]
    rfl
  rw [← hext n (i + 1) h, Nat.add_comm, hext (i + 1) n (by omega), hw]

/-- Counted from the newest word back, the extension by `n` holds the schedule words from `15 + n` down. -/
theorem extendSchedule_getD (b : List Byte) (n : Nat) {j : Nat} (h : j < 16 + n) :
    (extendSchedule (blockWords b).reverse n).getD j 0 = scheduleWord b (15 + n - j) := by
  have hlen : (extendSchedule (blockWords b).reverse n).length = 16 + n := by simp [blockWords]
  have hr := extendSchedule_reverse_getElem? b (i := 15 + n - j) (n := n) (by omega)
  rw [List.getElem?_reverse (by omega), hlen, show 16 + n - 1 - (15 + n - j) = j by omega] at hr
  rw [List.getD_eq_getElem?_getD, hr]
  rfl

/-- `W[t]` of the first sixteen [42_block_compressor.md R119]. -/
theorem scheduleWord_first (b : List Byte) {t : Nat} (h : t < 16) : scheduleWord b t = be32 b (4 * t) := by
  have hr := extendSchedule_reverse_getElem? b (i := t) (n := 0) (by omega)
  rw [extendSchedule, List.reverse_reverse, blockWords, List.getElem?_map,
    List.getElem?_range h] at hr
  exact (Option.some.inj hr).symm

/-- The recurrence of the schedule, for every word from the sixteenth on [42_block_compressor.md R120]. -/
theorem scheduleWord_recurrence (b : List Byte) (k : Nat) :
    scheduleWord b (k + 16) = smallSigma1 (scheduleWord b (k + 14)) + scheduleWord b (k + 9) +
      smallSigma0 (scheduleWord b (k + 1)) + scheduleWord b k := by
  have hnew := extendSchedule_getD b (k + 1) (j := 0) (by omega)
  rw [extendSchedule_succ, List.getD_cons_zero, nextScheduleWord,
    extendSchedule_getD b k (by omega), extendSchedule_getD b k (by omega),
    extendSchedule_getD b k (by omega), extendSchedule_getD b k (by omega)] at hnew
  rw [show k + 16 = 15 + (k + 1) - 0 by omega, ← hnew, show 15 + k - 1 = k + 14 by omega,
    show 15 + k - 6 = k + 9 by omega, show 15 + k - 14 = k + 1 by omega, show 15 + k - 15 = k by omega]

/-- Word `t` of the 64-word schedule [42_block_compressor.md R119, R120]. -/
theorem schedule_getElem? (b : List Byte) {t : Nat} (h : t < 64) : (schedule b)[t]? = some (scheduleWord b t) :=
  extendSchedule_reverse_getElem? b h

theorem schedule_length (b : List Byte) : (schedule b).length = 64 := by simp [schedule, blockWords]

/-! ### The datapath over a whole block -/

/-- The window of sixteen schedule words from `W[k]` on [42_block_compressor.md R127]. -/
def scheduleWindow (b : List Byte) (k : Nat) : Words16 :=
  ⟨scheduleWord b k, scheduleWord b (k + 1), scheduleWord b (k + 2), scheduleWord b (k + 3),
    scheduleWord b (k + 4), scheduleWord b (k + 5), scheduleWord b (k + 6), scheduleWord b (k + 7),
    scheduleWord b (k + 8), scheduleWord b (k + 9), scheduleWord b (k + 10), scheduleWord b (k + 11),
    scheduleWord b (k + 12), scheduleWord b (k + 13), scheduleWord b (k + 14), scheduleWord b (k + 15)⟩

/-- Block load fills the window with the first sixteen words [42_block_compressor.md R124]. -/
theorem parseBlock_eq_scheduleWindow (b : List Byte) : parseBlock b = scheduleWindow b 0 := by
  simp [parseBlock, scheduleWindow, scheduleWord_first]

/-- One shift of the window is one step along the schedule [42_block_compressor.md R125, R127]. -/
theorem shiftWindow_scheduleWindow (b : List Byte) (k : Nat) :
    shiftWindow (scheduleWindow b k) = scheduleWindow b (k + 1) := by
  have hnew := scheduleWord_recurrence b k
  simp only [shiftWindow, scheduleWindow, ← hnew, Nat.add_assoc, Nat.reduceAdd]

/-- The working variables after the first `k` rounds of a block [42_block_compressor.md R121, R123]. -/
def varsAfter (b : List Byte) (k : Nat) (hin : Words8) : Words8 :=
  runRounds ((romWords.zip (schedule b)).take k) hin

theorem varsAfter_zero (b : List Byte) (hin : Words8) : varsAfter b 0 hin = hin := rfl

/-- The feed-forward after 64 rounds is the pure function [42_block_compressor.md R123]. -/
theorem addWords_varsAfter (b : List Byte) (hin : Words8) : addWords hin (varsAfter b 64 hin) = compress hin b := by
  rw [compress, varsAfter, List.take_of_length_le]
  simp [romWords_length, schedule_length]

theorem runRounds_append (l l' : List (Word × Word)) (x : Words8) :
    runRounds (l ++ l') x = runRounds l' (runRounds l x) := by
  induction l generalizing x with
  | nil => rfl
  | cons kw l ih => exact ih _

/-- Round `k` on the working variables after `k` rounds [42_block_compressor.md R121]. -/
theorem varsAfter_succ (b : List Byte) (hin : Words8) {k : Nat} (h : k < 64) :
    varsAfter b (k + 1) hin =
      roundFn (rom (BitVec.ofNat 6 k)) (scheduleWord b k) (varsAfter b k hin) := by
  have hk : romWords[k]? = some (rom (BitVec.ofNat 6 k)) := by
    have := romWords_getElem? (BitVec.ofNat 6 k)
    rwa [BitVec.toNat_ofNat, Nat.mod_eq_of_lt (by omega)] at this
  have hz : (romWords.zip (schedule b))[k]? = some (rom (BitVec.ofNat 6 k), scheduleWord b k) :=
    List.getElem?_zip_eq_some.2 ⟨hk, schedule_getElem? b h⟩
  rw [varsAfter, List.take_add_one, hz, Option.toList_some, runRounds_append]
  rfl

/-- A block `b` just loaded with the current H [42_block_compressor.md R124]. -/
structure State.Loaded (s : State) (b : List Byte) : Prop where
  eng : s.eng = .compress
  rnd : s.rnd = 0
  win : s.win = parseBlock b
  vars : s.v = s.h

theorem load_Loaded (b : List Byte) (p : PadState) (s : State) : (load b p s.h s).Loaded b := ⟨rfl, rfl, rfl, rfl⟩

/-- The state after `k` rounds on a block loaded into `s`: nothing but `rnd`, the window and the working variables has
moved [42_block_compressor.md R125]. -/
def State.afterRounds (s : State) (b : List Byte) (k : Nat) : State :=
  { s with rnd := BitVec.ofNat 7 k, win := scheduleWindow b k, v := varsAfter b k s.h }

@[simp] theorem State.afterRounds_eng (s : State) (b : List Byte) (k : Nat) : (s.afterRounds b k).eng = s.eng := rfl
@[simp] theorem State.afterRounds_h (s : State) (b : List Byte) (k : Nat) : (s.afterRounds b k).h = s.h := rfl
@[simp] theorem State.afterRounds_v (s : State) (b : List Byte) (k : Nat) :
    (s.afterRounds b k).v = varsAfter b k s.h := rfl
@[simp] theorem State.afterRounds_rnd (s : State) (b : List Byte) (k : Nat) :
    (s.afterRounds b k).rnd = BitVec.ofNat 7 k := rfl

theorem State.Loaded.afterRounds_zero {s : State} {b : List Byte} (h : s.Loaded b) : s.afterRounds b 0 = s := by
  obtain ⟨-, hr, hw, hv⟩ := h
  rw [State.afterRounds, ← parseBlock_eq_scheduleWindow, ← hw, varsAfter_zero b s.h |>.trans hv.symm,
    show BitVec.ofNat 7 0 = s.rnd from hr.symm]

/-- The engine's round step takes a loaded block from `k` rounds to `k + 1`. -/
theorem roundStep_afterRounds (s : State) (b : List Byte) {k : Nat} (hk : k < 64) :
    roundStep (s.afterRounds b k) = s.afterRounds b (k + 1) := by
  have hrnd : (BitVec.ofNat 7 k).extractLsb' 0 6 = BitVec.ofNat 6 k := by
    apply BitVec.eq_of_toNat_eq
    simp
  rw [State.afterRounds, State.afterRounds, ← shiftWindow_scheduleWindow, varsAfter_succ b s.h hk, ← hrnd,
    BitVec.ofNat_add]
  rfl

/-- `k` edges after a load the engine has done `k` rounds and nothing else [42_block_compressor.md R127]. -/
theorem engineEdges_rounds {s : State} {b : List Byte} (hs : s.Loaded b) {k : Nat} (hk : k ≤ 64) :
    engineEdges k s = .ok (s.afterRounds b k) := by
  induction k with
  | zero => rw [hs.afterRounds_zero]; rfl
  | succ k ih =>
    have hr : (s.afterRounds b k).rnd.toNat < 64 := by
      rw [State.afterRounds_rnd, BitVec.toNat_ofNat]
      omega
    rw [engineEdges_add 1 (ih (by omega)), engineEdges_one, engineEdge_round ((s.afterRounds_eng b k).trans hs.eng) hr,
      roundStep_afterRounds s b hk]

/-- `s` with all rounds done, leaving `v` and `win`, and H fed forward to `hn` [42_block_compressor.md R126]. -/
def State.fedForward (s : State) (hn v : Words8) (win : Words16) : State :=
  { s with h := hn, v := v, win := win, rnd := 64#7 }

/-- After `k` rounds a new H beside them is written into a state of this shape. -/
theorem afterRounds_withHash (s : State) (b : List Byte) (k : Nat) (hn : Words8) :
    { s.afterRounds b k with h := hn } =
      { s with h := hn, v := varsAfter b k s.h, win := scheduleWindow b k, rnd := BitVec.ofNat 7 k } := rfl

/-- The 65 edges of a loaded block give H the pure function's value and complete by `pad`. The new H is named apart, so
that no later comparison of two states computes it [42_block_compressor.md R126, R130]. -/
theorem engineEdges_loaded {s : State} {b : List Byte} (hs : s.Loaded b) :
    ∃ hn v win, hn = compress s.h b ∧ engineEdges 65 s = complete (s.fedForward hn v win) := by
  refine ⟨_, varsAfter b 64 s.h, scheduleWindow b 64, rfl, ?_⟩
  rw [engineEdges_add 1 (engineEdges_rounds hs (Nat.le_refl 64)), engineEdges_one,
    engineEdge_feedForward ((s.afterRounds_eng b 64).trans hs.eng) (s.afterRounds_rnd b 64), afterRounds_withHash,
    s.afterRounds_h, s.afterRounds_v, addWords_varsAfter, State.fedForward]

/-- A data block: the engine stops with the new H [43_streaming_driver.md R144]. -/
theorem engineEdges_dataBlock {s : State} {b : List Byte} (hs : s.Loaded b) (hp : s.pad = .pNone) :
    ∃ u, engineEdges 65 s = .ok u ∧ u.eng = .idle ∧ u.phase = s.phase ∧ u.bufLen = s.bufLen ∧
      u.h = compress s.h b := by
  obtain ⟨hn, v, win, hh, h⟩ := engineEdges_loaded hs
  exact ⟨_, h.trans (complete_pNone hp), rfl, rfl, rfl, hh⟩

/-- The first padding block: PadB is loaded with the new H [43_streaming_driver.md R144]. -/
theorem engineEdges_firstPadding {s : State} {b lb : List Byte} (hs : s.Loaded b) (hp : s.pad = .pFirst)
    (hl : lengthField s.totalLen = .ok lb) :
    ∃ u, engineEdges 65 s = .ok u ∧ u.Loaded (padB lb) ∧ u.pad = .pFinal ∧ u.h = compress s.h b := by
  obtain ⟨hn, v, win, hh, h⟩ := engineEdges_loaded hs
  exact ⟨_, h.trans (complete_pFirst hp hl), load_Loaded _ _ (s.fedForward hn v win), rfl, hh⟩

/-- The last padding block: the machine is FINALIZED with the new H [43_streaming_driver.md R144]. -/
theorem engineEdges_lastPadding {s : State} {b : List Byte} (hs : s.Loaded b) (hp : s.pad = .pFinal) :
    ∃ u, engineEdges 65 s = .ok u ∧ u.eng = .idle ∧ u.phase = .finalized ∧ u.bufLen = 0 ∧ u.h = compress s.h b := by
  obtain ⟨hn, v, win, hh, h⟩ := engineEdges_loaded hs
  exact ⟨_, h.trans (complete_pFinal hp), rfl, rfl, rfl, hh⟩

end Sys2Proof.Machine
end

section
/-! PROOFS. A message cut into blocks, what the machine holds of it after a push and after FINAL, and the digest of a whole run. -/

namespace Sys2Proof.Machine

/-! ### The blocks of a message -/

theorem blocksOf_succ (l : List Byte) (n : Nat) : blocksOf l (n + 1) = blocksOf l n ++ [(l.drop (64 * n)).take 64] := by
  simp [blocksOf, List.range_succ]

/-- The whole blocks at the front of a message do not depend on what follows them. -/
theorem blocksOf_append (l x : List Byte) {n : Nat} (h : 64 * n ≤ l.length) : blocksOf (l ++ x) n = blocksOf l n := by
  refine List.map_congr_left fun i hi => ?_
  have hi : i < n := List.mem_range.1 hi
  rw [List.drop_append_of_le_length (by omega), List.take_append_of_le_length (by rw [List.length_drop]; omega)]

/-- The bytes of a message after its whole blocks. -/
def partialBlock (message : List Byte) : List Byte := message.drop (64 * (message.length / 64))

theorem partialBlock_length (message : List Byte) : (partialBlock message).length = message.length % 64 := by
  rw [partialBlock, List.length_drop]
  omega

/-- Bytes that complete no block are appended to the partial block. -/
theorem partialBlock_append_within {message x : List Byte} (h : message.length % 64 + x.length < 64) :
    partialBlock (message ++ x) = partialBlock message ++ x := by
  have hq : (message ++ x).length / 64 = message.length / 64 := by rw [List.length_append]; omega
  rw [partialBlock, hq, List.drop_append_of_le_length (by omega), partialBlock]

/-- Bytes that complete no block leave the chaining value. -/
theorem chainingValue_append_within {message x : List Byte} (h : message.length % 64 + x.length < 64) :
    chainingValue (message ++ x) = chainingValue message := by
  have hq : (message ++ x).length / 64 = message.length / 64 := by rw [List.length_append]; omega
  rw [chainingValue, hq, blocksOf_append _ _ (by omega), chainingValue]

/-- Past a completed block only the bytes after it are left. -/
theorem partialBlock_append_block {message y x : List Byte} (hy : message.length % 64 + y.length = 64)
    (hx : x.length < 64) : partialBlock (message ++ (y ++ x)) = x := by
  have hq : 64 * ((message ++ (y ++ x)).length / 64) = (message ++ y).length := by
    simp only [List.length_append]
    omega
  rw [partialBlock, hq, ← List.append_assoc, List.drop_left]

/-- A completed block is compressed into the chaining value [10_state.md R38 (c)]. -/
theorem chainingValue_append_block {message y x : List Byte} (hy : message.length % 64 + y.length = 64)
    (hx : x.length < 64) :
    chainingValue (message ++ (y ++ x)) = compress (chainingValue message) (partialBlock message ++ y) := by
  have hq : (message ++ (y ++ x)).length / 64 = message.length / 64 + 1 := by
    simp only [List.length_append]
    omega
  have hb : (partialBlock message ++ y).length = 64 := by rw [List.length_append, partialBlock_length, hy]
  rw [chainingValue, hq, blocksOf_succ, blocksOf_append _ _ (by omega), List.drop_append_of_le_length (by omega),
    ← partialBlock, ← List.append_assoc, List.take_left' hb, compressAll, List.foldl_append]
  rfl

/-- A message cut at a block boundary has no partial block. -/
theorem partialBlock_complete {message y : List Byte} (hy : message.length % 64 + y.length = 64) :
    partialBlock (message ++ y) = [] := by
  simpa using partialBlock_append_block hy (x := []) (by simp)

/-- The bytes that end a message at a block boundary complete its last block. -/
theorem chainingValue_complete {message y : List Byte} (hy : message.length % 64 + y.length = 64) :
    chainingValue (message ++ y) = compress (chainingValue message) (partialBlock message ++ y) := by
  simpa using chainingValue_append_block hy (x := []) (by simp)

/-! ### The digest by padding blocks -/

/-- The length field of a message [43_streaming_driver.md R142]. -/
def lengthBytes (message : List Byte) : List Byte := be64bytes (BitVec.ofNat 64 (8 * message.length))

/-- The digest is the chaining value of the padded message, which is whole blocks [43_streaming_driver.md R149]. -/
theorem sha256_eq_chainingValue (message : List Byte) : sha256 message = chainingValue (paddedMessage message) := rfl

theorem paddedMessage_short {message : List Byte} (h : message.length % 64 ≤ 55) :
    paddedMessage message = message ++ ([0x80] ++ zeros (55 - message.length % 64) ++ lengthBytes message) := by
  have hk : (119 - message.length % 64) % 64 = 55 - message.length % 64 := by omega
  simp [paddedMessage, lengthBytes, hk]

theorem paddedMessage_long {message : List Byte} (h : 56 ≤ message.length % 64) :
    paddedMessage message =
      message ++ ([0x80] ++ zeros (63 - message.length % 64)) ++ padB (lengthBytes message) := by
  have hk : (119 - message.length % 64) % 64 = (63 - message.length % 64) + 56 := by omega
  simp [paddedMessage, lengthBytes, hk, padB, zeros, List.replicate_add]

/-- With at most 55 bytes in the partial block, one padding block ends the digest [43_streaming_driver.md R143]. -/
theorem sha256_onePaddingBlock {message : List Byte} (h : message.length % 64 ≤ 55) :
    sha256 message = compress (chainingValue message) (padA (partialBlock message) (lengthBytes message)) := by
  have hlen := partialBlock_length message
  have hy : message.length % 64 +
      ([(0x80 : Byte)] ++ zeros (55 - message.length % 64) ++ lengthBytes message).length = 64 := by
    simp [lengthBytes]
    omega
  rw [sha256_eq_chainingValue, paddedMessage_short h, chainingValue_complete hy, padA_short _ _ (by omega), hlen,
    List.append_assoc, List.append_assoc, List.append_assoc]

/-- With 56 bytes or more in the partial block, two padding blocks end the digest [43_streaming_driver.md R143]. -/
theorem sha256_twoPaddingBlocks {message : List Byte} (h : 56 ≤ message.length % 64) :
    sha256 message = compress
      (compress (chainingValue message) (padA (partialBlock message) (lengthBytes message)))
      (padB (lengthBytes message)) := by
  have hlen := partialBlock_length message
  have hy : message.length % 64 + ([(0x80 : Byte)] ++ zeros (63 - message.length % 64)).length = 64 := by
    simp
    omega
  have hz : (message ++ ([(0x80 : Byte)] ++ zeros (63 - message.length % 64))).length % 64 +
      (padB (lengthBytes message)).length = 64 := by
    rw [← partialBlock_length, partialBlock_complete hy]
    simp [padB, lengthBytes]
  rw [sha256_eq_chainingValue, paddedMessage_long h, chainingValue_complete hz, partialBlock_complete hy,
    chainingValue_complete hy, padA_long _ _ (by omega), hlen, List.nil_append, List.append_assoc]

/-! ### The buffer -/

/-- A run written behind the buffered bytes is read with them. -/
theorem Memory.readRun_writeRun {m : Memory} {front : List Byte} (bs : List Byte)
    (h : Memory.readRun m 0 front.length = some front) :
    Memory.readRun (m.writeRun front.length bs) 0 (front.length + bs.length) = some (front ++ bs) := by
  obtain ⟨-, hfront⟩ := Memory.readRun_spec m front.length 0 front h
  refine Memory.readRun_of_bytes _ _ 0 _ List.length_append fun k hk => ?_
  by_cases hin : k < front.length
  · rw [Memory.readByte_writeRun_outside _ _ _ _ (by omega), hfront k hin, List.getElem?_append_left hin]
  · obtain ⟨i, rfl⟩ := Nat.exists_eq_add_of_le (Nat.le_of_not_lt hin)
    rw [Nat.zero_add, Memory.readByte_writeRun_inside bs m _ i (by omega), List.getElem?_append_right (by omega),
      Nat.add_sub_cancel_left]

/-! ### A push -/

/-- What is absorbed, said with the partial block in the buffer. -/
theorem absorbed_of_partialBlock {t : State} {message rest : List Byte} (hrest : partialBlock message = rest)
    (hlen : t.bufLen = BitVec.ofNat 7 rest.length) (hread : Memory.readRun t.buf 0 rest.length = some rest)
    (htotal : t.totalLen.toNat = message.length) (hchain : t.h = chainingValue message)
    (hphase : t.phase = .fresh ∨ t.phase = .accumulating) : t.Absorbed message := by
  subst hrest
  have hl : t.bufLen.toNat = (partialBlock message).length := by
    rw [hlen, BitVec.toNat_ofNat, partialBlock_length]
    omega
  exact ⟨htotal, hl.trans (partialBlock_length message), by rw [hl]; exact hread, hchain, hphase⟩

theorem State.Absorbed.bufLen_eq {s : State} {message : List Byte} (h : s.Absorbed message) :
    s.bufLen.toNat = (partialBlock message).length := by
  rw [h.len, partialBlock_length]

/-- The buffered bytes are the partial block. -/
theorem State.Absorbed.readRun_buf {s : State} {message : List Byte} (h : s.Absorbed message) :
    Memory.readRun s.buf 0 (partialBlock message).length = some (partialBlock message) := by
  rw [← h.bufLen_eq]
  exact h.buffered

theorem State.Absorbed.bufferedBytes_eq {s : State} {message : List Byte} (h : s.Absorbed message) :
    bufferedBytes s = .ok (partialBlock message) := by
  have hl : (partialBlock message).length < 64 := by rw [partialBlock_length]; omega
  rw [bufferedBytes, h.bufLen_eq, blockBytes, if_pos hl, memRead, Nat.zero_add, if_pos (Nat.le_of_lt hl),
    h.readRun_buf]

theorem State.Absorbed.notFinalized {s : State} {message : List Byte} (h : s.Absorbed message) :
    s.phase ≠ .finalized := by
  rcases h.phase with h | h <;> simp [h]

theorem State.Absorbed.afterUpdate {s : State} {message : List Byte} (h : s.Absorbed message) :
    s.phase.afterUpdate = .accumulating := by
  rcases h.phase with h | h <;> simp [h, Phase.afterUpdate]

/-- What is absorbed is a matter of the block's own state without DATA. -/
theorem State.Absorbed.acked_setData {s : State} {message : List Byte} (h : s.Absorbed message) (w : Word) :
    (acked none (setData w s)).Absorbed message := ⟨h.total, h.len, h.buffered, h.chain, h.phase⟩

theorem State.Absorbed.notAcked {s : State} {message : List Byte} (h : s.Absorbed message) :
    (notAcked s).Absorbed message := ⟨h.total, h.len, h.buffered, h.chain, h.phase⟩

/-- The state to which an accepted UPDATE appends its operand: the bytes are counted, the phase is ACCUMULATING
[41_commands.md R94]. -/
def State.counted (s : State) (n : Fin 5) : State :=
  { s with totalLen := s.totalLen + BitVec.ofNat 64 n.val, phase := .accumulating }

/-- UPDATE on an absorbed message is not rejected: it appends its operand. -/
theorem State.Absorbed.updateEffect_eq {s : State} {message : List Byte} {n : Fin 5} (h : s.Absorbed message)
    (hm : message.length + n.val ≤ maxBytes) :
    updateEffect n s = append (operandBytes s.data n) (s.counted n) := by
  rw [updateEffect_append n s h.notFinalized (by rw [h.total]; exact hm), h.afterUpdate, State.counted]

/-- The count is then the length of the longer message. -/
theorem State.Absorbed.total_counted {s : State} {message : List Byte} {n : Fin 5} (h : s.Absorbed message)
    (hm : message.length + n.val ≤ maxBytes) :
    (s.counted n).totalLen.toNat = (message ++ operandBytes s.data n).length := by
  rw [List.length_append, operandBytes_length, ← h.total]
  exact totalLen_add _ n (by rw [h.total]; exact hm)

/-- UPDATE that completes no block: its bytes are absorbed at once [43_streaming_driver.md R140]. -/
theorem update_absorbs_within {s : State} {message : List Byte} {n : Fin 5} (he : s.eng = .idle)
    (ha : s.Absorbed message) (hm : message.length + n.val ≤ maxBytes) (h : message.length % 64 + n.val < 64) :
    ∃ u t, updateEffect n s = .ok u ∧ engineEdges 65 (acked none u) = .ok t ∧ t.eng = .idle ∧
      t.Absorbed (message ++ operandBytes s.data n) := by
  have hn := operandBytes_length s.data n
  have hwithin : message.length % 64 + (operandBytes s.data n).length < 64 := by rwa [hn]
  have happ := append_short (operandBytes s.data n) (s.counted n) (by rwa [← ha.len] at hwithin)
  refine ⟨_, _, (ha.updateEffect_eq hm).trans happ, engineEdges_idle 65 he, he, ?_⟩
  refine absorbed_of_partialBlock (partialBlock_append_within hwithin) ?_ ?_ (ha.total_counted hm)
    (ha.chain.trans (chainingValue_append_within hwithin).symm) (.inr rfl)
  · rw [List.length_append, ← ha.bufLen_eq]
    rfl
  · have hread := Memory.readRun_writeRun (operandBytes s.data n) ha.readRun_buf
    rw [← List.length_append, ← ha.bufLen_eq] at hread
    exact hread

/-- `Append` that completes a block, with the 65 edges of its compression [43_streaming_driver.md R140, R144]. -/
theorem append_full_runs {bytes front : List Byte} {s : State} (hf : bufferedBytes s = .ok front)
    (h : 64 ≤ s.bufLen.toNat + bytes.length) (hb : bytes.length ≤ 4) :
    ∃ u t, append bytes s = .ok u ∧ engineEdges 65 (acked none u) = .ok t ∧ t.eng = .idle ∧ t.phase = s.phase ∧
      t.totalLen = s.totalLen ∧ t.h = compress s.h (front ++ bytes.take (64 - s.bufLen.toNat)) ∧
      t.bufLen = BitVec.ofNat 7 (bytes.drop (64 - s.bufLen.toNat)).length ∧
      t.buf = Memory.writeRun s.buf 0 (bytes.drop (64 - s.bufLen.toNat)) := by
  have happ := append_full bytes s front hf h hb
  rw [← List.length_drop] at happ
  generalize front ++ bytes.take (64 - s.bufLen.toNat) = b at happ ⊢
  have hloaded : ∀ r : State, (acked none (load b .pNone r.h r)).Loaded b := fun r => ⟨rfl, rfl, rfl, rfl⟩
  obtain ⟨t, ht, heng, hphase, hlen, hh⟩ := engineEdges_dataBlock (hloaded _) rfl
  obtain ⟨hbuf, htotal, -⟩ := engineEdges_frame ht
  exact ⟨_, t, happ, ht, heng, hphase, htotal, hh, hlen, hbuf⟩

/-- UPDATE that completes a block: 65 edges later the block is in the chaining value and the bytes left over are
buffered [43_streaming_driver.md R140, R144]. -/
theorem update_absorbs_block {s : State} {message : List Byte} {n : Fin 5} (ha : s.Absorbed message)
    (hm : message.length + n.val ≤ maxBytes) (h : 64 ≤ message.length % 64 + n.val) :
    ∃ u t, updateEffect n s = .ok u ∧ engineEdges 65 (acked none u) = .ok t ∧ t.eng = .idle ∧
      t.Absorbed (message ++ operandBytes s.data n) := by
  have hn := operandBytes_length s.data n
  have hfull : 64 ≤ s.bufLen.toNat + (operandBytes s.data n).length := by rwa [ha.len, hn]
  have hfront : bufferedBytes (s.counted n) = .ok (partialBlock message) := ha.bufferedBytes_eq
  obtain ⟨u, t, hu, ht, heng, hphase, htotal, hh, hlen, hbuf⟩ := append_full_runs hfront hfull (by omega)
  refine ⟨u, t, (ha.updateEffect_eq hm).trans hu, ht, heng, ?_⟩
  have hsplit : message ++ operandBytes s.data n = message ++
      ((operandBytes s.data n).take (64 - s.bufLen.toNat) ++ (operandBytes s.data n).drop (64 - s.bufLen.toNat)) := by
    rw [List.take_append_drop]
  have hy : message.length % 64 + ((operandBytes s.data n).take (64 - s.bufLen.toNat)).length = 64 := by
    have hlen := ha.len
    rw [List.length_take]
    omega
  have hx : ((operandBytes s.data n).drop (64 - s.bufLen.toNat)).length < 64 := by
    rw [List.length_drop]
    omega
  refine absorbed_of_partialBlock (hsplit ▸ partialBlock_append_block hy hx) hlen ?_
    ((congrArg BitVec.toNat htotal).trans (ha.total_counted hm)) ?_ (.inr hphase)
  · rw [hbuf]
    have hread := Memory.readRun_writeRun (m := s.buf) (front := [])
      ((operandBytes s.data n).drop (64 - s.bufLen.toNat)) rfl
    rwa [List.length_nil, Nat.zero_add, List.nil_append] at hread
  · rw [hsplit, chainingValue_append_block hy hx, ← ha.chain]
    exact hh

/-- A push onto an absorbed message on a quiet machine gives the longer message absorbed on a quiet machine
[10_state.md R38]. -/
theorem pushOne_absorbs {s : State} {message : List Byte} {p : Push} (hq : s.Quiet) (ha : s.Absorbed message)
    (hm : message.length + p.2.val ≤ maxBytes) :
    ∃ t, pushOne p s = .next t ∧ t.Quiet ∧ t.Absorbed (message ++ p.bytes) := by
  have ha1 := ha.acked_setData p.1
  have hrun : ∃ u t, updateEffect p.2 (acked none (setData p.1 s)) = .ok u ∧ engineEdges 65 (acked none u) = .ok t ∧
      t.eng = .idle ∧ t.Absorbed (message ++ p.bytes) := by
    by_cases h : message.length % 64 + p.2.val < 64
    · exact update_absorbs_within hq.idle ha1 hm h
    · exact update_absorbs_block ha1 hm (by omega)
  obtain ⟨u, t, hu, ht, he, hat⟩ := hrun
  obtain ⟨-, hui, -⟩ := commandEffect_frame (c := .update p.2) hu
  obtain ⟨-, -, -, hti, htr⟩ := engineEdges_frame ht
  have hi : (acked none u).inputs = [] := hui.trans hq.inputs
  refine ⟨notAcked t, ?_, ⟨he, hti.trans hi, htr⟩, hat.notAcked⟩
  rw [pushOne, exec_wrData, accessEdge_ok _ _ (engineEdge_idle hq.idle), andThen_next, exec_update,
    commandEdge_idle (s := acked none (setData p.1 s)) hq.idle hu, andThen_next]
  exact steps_alone hi rfl ht

/-- Pushes onto an absorbed message on a quiet machine give the message with all their bytes absorbed. -/
theorem pushAll_absorbs {s : State} {message : List Byte} (pushes : List Push) (hq : s.Quiet)
    (ha : s.Absorbed message) (hm : message.length + (pushes.flatMap Push.bytes).length ≤ maxBytes) :
    ∃ t, pushAll pushes s = .next t ∧ t.Quiet ∧ t.Absorbed (message ++ pushes.flatMap Push.bytes) := by
  induction pushes generalizing s message with
  | nil => exact ⟨s, rfl, hq, by rwa [List.flatMap_nil, List.append_nil]⟩
  | cons p ps ih =>
    have hp : p.bytes.length = p.2.val := operandBytes_length p.1 p.2
    rw [List.flatMap_cons, List.length_append, hp] at hm
    obtain ⟨u, hu, huq, hua⟩ := pushOne_absorbs (p := p) hq ha (by omega)
    obtain ⟨t, ht, htq, hta⟩ := ih huq hua (by rw [List.length_append, hp]; omega)
    rw [List.append_assoc, ← List.flatMap_cons] at hta
    exact ⟨t, by rw [pushAll, hu, andThen_next, ht], htq, hta⟩

/-! ### FINAL -/

/-- The padding blocks of FINAL: after 130 edges the machine is FINALIZED with the digest
[43_streaming_driver.md R143, R144, R149]. -/
theorem paddingBlocks_run {s : State} {message : List Byte} (hchain : s.h = chainingValue message)
    (hl : lengthField s.totalLen = .ok (lengthBytes message))
    (hs : s.Loaded (padA (partialBlock message) (lengthBytes message)))
    (hp : s.pad = if message.length % 64 ≤ 55 then .pFinal else .pFirst) :
    ∃ t, engineEdges 130 s = .ok t ∧ t.eng = .idle ∧ t.phase = .finalized ∧ t.bufLen = 0 ∧ t.h = sha256 message := by
  by_cases hone : message.length % 64 ≤ 55
  · rw [if_pos hone] at hp
    obtain ⟨t, ht, heng, hphase, hlen, hh⟩ := engineEdges_lastPadding hs hp
    refine ⟨t, ?_, heng, hphase, hlen, ?_⟩
    · rw [engineEdges_add 65 ht, engineEdges_idle 65 heng]
    · rw [hh, hchain, sha256_onePaddingBlock hone]
  · rw [if_neg hone] at hp
    obtain ⟨u, hu, hus, hup, huh⟩ := engineEdges_firstPadding hs hp hl
    obtain ⟨t, ht, heng, hphase, hlen, hh⟩ := engineEdges_lastPadding hus hup
    refine ⟨t, ?_, heng, hphase, hlen, ?_⟩
    · rw [engineEdges_add 65 hu, ht]
    · rw [hh, huh, hchain, sha256_twoPaddingBlocks (by omega)]

/-- FINAL on an absorbed message on a quiet machine gives the digest on a quiet machine, the count kept
[10_state.md R38, 43_streaming_driver.md R149]. -/
theorem finish_gives_digest {s : State} {message : List Byte} (hq : s.Quiet) (ha : s.Absorbed message)
    (hm : message.length ≤ maxBytes) :
    ∃ t, finish s = .next t ∧ t.Quiet ∧ t.phase = .finalized ∧ t.bufLen = 0 ∧ t.totalLen = s.totalLen ∧
      t.h = sha256 message := by
  have hl : lengthField s.totalLen = .ok (lengthBytes message) := by
    rw [lengthField_ok _ (by rw [ha.total]; exact hm), ha.total, lengthBytes]
  have hbuf : bufferedBytes { s with phase := .finalizing } = .ok (partialBlock message) := ha.bufferedBytes_eq
  have hfinal := (finalEffect_padding s ha.notFinalized).trans (startPadding_ok _ _ _ hbuf hl)
  obtain ⟨t, ht, heng, hphase, hlen, hh⟩ :=
    paddingBlocks_run (s := acked none (load _ _ s.h { s with phase := .finalizing })) ha.chain hl
      ⟨rfl, rfl, rfl, rfl⟩ (by rw [← ha.len]; rfl)
  obtain ⟨-, htotal, -, hti, htr⟩ := engineEdges_frame ht
  refine ⟨notAcked t, ?_, ⟨heng, hti.trans hq.inputs, htr⟩, hphase, hlen, htotal, hh⟩
  rw [finish, exec_final, commandEdge_idle hq.idle hfinal, andThen_next]
  exact steps_alone hq.inputs rfl ht

/-- INIT on a quiet machine absorbs the empty message [41_commands.md R93]. -/
theorem init_absorbs_nothing {s : State} (hq : s.Quiet) :
    ∃ t, exec .init s = .next t ∧ t.Quiet ∧ t.Absorbed [] :=
  ⟨_, commandEdge_idle (c := initEffect) hq.idle rfl, ⟨hq.idle, hq.inputs, rfl⟩, rfl, rfl, rfl, rfl, .inl rfl⟩

/-- Settles O53, by INIT, then the pushes one after another, then FINAL. -/
theorem digestDependsOnlyOnTheBytes : Obligations.DigestDependsOnlyOnTheBytes := by
  intro s pushes _ hq hm
  obtain ⟨u, hu, huq, hua⟩ := init_absorbs_nothing hq
  obtain ⟨w, hw, hwq, hwa⟩ := pushAll_absorbs pushes huq hua (by rwa [List.length_nil, Nat.zero_add])
  obtain ⟨t, ht, -, hphase, -, -, hh⟩ := finish_gives_digest hwq hwa hm
  exact ⟨t, by rw [hu, andThen_next, hw, andThen_next, ht], hphase, hh⟩

end Sys2Proof.Machine
end

section
/-! PROOFS. The invariant: the clauses on the buffer and the counts, and that the engine, every command, every access and reset keep it. -/

namespace Sys2Proof.Machine

/-! ### The clauses on the buffer and the counts -/

/-- The clauses of the invariant that speak of the buffer, the counts and the phase alone, not of the engine. -/
structure State.CountsOk (s : State) : Prop where
  bufWf : Memory.wf s.buf
  bufLenLt : s.bufLen.toNat < 64
  bufFilled : Memory.filledBelow s.buf s.bufLen.toNat
  totalLe : s.totalLen.toNat ≤ maxBytes
  lenAgrees : s.phase ≠ .finalized → s.bufLen.toNat = s.totalLen.toNat % 64
  finalizedLen : s.phase = .finalized → s.bufLen = 0
  freshLen : s.phase = .fresh → s.totalLen = 0

theorem State.Inv.countsOk {s : State} (h : s.Inv) : s.CountsOk := { h with }

/-- With the engine stopped, the counts and a phase other than FINALIZING are the whole invariant. -/
theorem State.CountsOk.inv_idle {s : State} (h : s.CountsOk) (he : s.eng = .idle) (hr : s.rnd = 0)
    (hp : s.pad = .pNone) (hph : s.phase ≠ .finalizing) : s.Inv :=
  { h with
    rndLe := by simp [hr]
    idleRnd := fun _ => hr
    idlePad := fun _ => hp
    idlePhase := fun _ => hph
    dataPhase := by simp [he]
    padPhase := by simp [he]
    firstLen := by simp [hp] }

/-- A block loaded with the pad its phase asks for meets the invariant [42_block_compressor.md R124]. -/
theorem State.CountsOk.inv_load {s : State} {p : PadState} (h : s.CountsOk) (b : List Byte) (hcur : Words8)
    (hdata : p = .pNone → s.phase = .accumulating) (hpad : p ≠ .pNone → s.phase = .finalizing)
    (hfirst : p = .pFirst → padLimit ≤ s.bufLen.toNat) : (load b p hcur s).Inv :=
  { h with
    rndLe := by simp
    idleRnd := by simp
    idlePad := by simp
    idlePhase := by simp
    dataPhase := fun _ => hdata
    padPhase := fun _ => hpad
    firstLen := hfirst }

theorem Memory.filledBelow_zero (m : Memory) : m.filledBelow 0 := fun k hk => absurd hk (Nat.not_lt_zero k)

/-- An idle state with nothing counted and phase FRESH meets the invariant: the state after reset and after INIT. -/
theorem inv_fresh {s : State} (hwf : Memory.wf s.buf) (he : s.eng = .idle) (hr : s.rnd = 0) (hp : s.pad = .pNone)
    (hph : s.phase = .fresh) (hl : s.bufLen = 0) (ht : s.totalLen = 0) : s.Inv := by
  refine State.CountsOk.inv_idle ⟨hwf, ?_, ?_, ?_, ?_, fun _ => hl, fun _ => ht⟩ he hr hp (by simp [hph])
  · simp [hl]
  · rw [hl]
    exact Memory.filledBelow_zero s.buf
  · simp [ht]
  · simp [hl, ht]

theorem inv_reset : State.reset.Inv := inv_fresh ⟨.nil, by simp [State.reset]⟩ rfl rfl rfl rfl rfl rfl

theorem inv_resetEdge (s : State) : (resetEdge s).Inv := { inv_reset with }

/-- Settles O1: the reset state is idle and FRESH with nothing counted. -/
theorem resetMeetsInvariant : Obligations.ResetMeetsInvariant := inv_reset

/-! ### The engine's step -/

/-- A new H is no matter of the counts. -/
theorem State.CountsOk.withHash {s : State} (hn : Words8) (h : s.CountsOk) : ({ s with h := hn }).CountsOk := { h with }

theorem inv_roundStep {s : State} (h : s.Inv) (he : s.eng = .compress) (hr : s.rnd.toNat < 64) :
    (roundStep s).Inv :=
  { h with
    rndLe := by
      rw [roundStep_rnd, BitVec.toNat_add]
      simp
      omega
    idleRnd := by simp [he] }

/-- Completion by `pad` meets the invariant, whatever H was fed forward [43_streaming_driver.md R144]. -/
theorem inv_complete {s t : State} {hn : Words8} (h : s.Inv) (he : s.eng = .compress)
    (hc : complete { s with h := hn } = .ok t) : t.Inv := by
  have hcounts := h.countsOk.withHash hn
  rcases complete_inv hc with ⟨hp, rfl⟩ | ⟨hp, lb, -, rfl⟩ | ⟨hp, rfl⟩
  · have hph : s.phase = .accumulating := h.dataPhase he hp
    exact State.CountsOk.inv_idle { hcounts with } rfl rfl hp (by simp [hph])
  · have hph : s.phase = .finalizing := h.padPhase he (by simp [show s.pad = .pFirst from hp])
    exact hcounts.inv_load _ _ (by simp) (fun _ => hph) (by simp)
  · refine State.CountsOk.inv_idle ?_ rfl rfl rfl (by simp)
    exact { hcounts with
      bufLenLt := by simp
      bufFilled := Memory.filledBelow_zero s.buf
      lenAgrees := by simp
      finalizedLen := by simp
      freshLen := by simp }

theorem inv_engineEdge {s t : State} (h : s.Inv) (he : engineEdge s = .ok t) : t.Inv := by
  rcases engineEdge_inv he with ⟨-, rfl⟩ | ⟨hb, hr, rfl⟩ | ⟨hb, -, hc⟩
  · exact h
  · exact inv_roundStep h hb hr
  · exact inv_complete h hb hc

/-! ### The commands -/

/-- A run written at the end of the bytes that have values extends them. -/
theorem Memory.filledBelow_writeRun {m : Memory} {a : Nat} (bs : List Byte) (h : m.filledBelow a) :
    Memory.filledBelow (m.writeRun a bs) (a + bs.length) := by
  intro k hk
  by_cases hin : k < a
  · rw [Memory.readByte_writeRun_outside bs m a k (.inl hin)]
    exact h k hin
  · obtain ⟨i, rfl⟩ := Nat.exists_eq_add_of_le (Nat.le_of_not_lt hin)
    rw [Memory.readByte_writeRun_inside bs m a i (by omega), List.getElem?_eq_getElem (by omega)]
    rfl

/-- Bytes stored in phase ACCUMULATING from `a` on, and `buf_len` their end, agree with a byte count that ends a block
there [43_streaming_driver.md R140]. -/
theorem countsOk_store {s : State} {a : Nat} {bytes : List Byte} {len : BitVec 7} (hwf : Memory.wf s.buf)
    (hfilled : Memory.filledBelow s.buf a) (hlt : a + bytes.length < 64)
    (hlen : len = BitVec.ofNat 7 (a + bytes.length)) (htotal : s.totalLen.toNat ≤ maxBytes)
    (hmod : s.totalLen.toNat % 64 = a + bytes.length) (hph : s.phase = .accumulating) :
    ({ s with buf := Memory.writeRun s.buf a bytes, bufLen := len }).CountsOk := by
  have hl : len.toNat = a + bytes.length := by
    rw [hlen, BitVec.toNat_ofNat]
    omega
  exact
    { bufWf := Memory.wf_writeRun bytes s.buf a hwf (by omega)
      bufLenLt := by rw [hl]; exact hlt
      bufFilled := by rw [hl]; exact Memory.filledBelow_writeRun bytes hfilled
      totalLe := htotal
      lenAgrees := fun _ => by rw [hl]; exact hmod.symm
      finalizedLen := by simp [hph]
      freshLen := by simp [hph] }

/-- From an idle state that is not FINALIZED an accepted UPDATE leaves ACCUMULATING. -/
theorem State.Inv.afterUpdate {s : State} (h : s.Inv) (he : s.eng = .idle) (hph : s.phase ≠ .finalized) :
    s.phase.afterUpdate = .accumulating := by
  have hfin := h.idlePhase he
  cases hs : s.phase <;> simp_all [Phase.afterUpdate]

theorem inv_updateEffect {n : Fin 5} {s t : State} (h : s.Inv) (he : s.eng = .idle)
    (hu : updateEffect n s = .ok t) : t.Inv := by
  rcases updateEffect_inv hu with ⟨-, rfl⟩ | ⟨-, -, rfl⟩ | ⟨hph, ht, ha⟩
  · exact inv_raise .misuse h
  · exact inv_raise .capacity h
  · rw [h.afterUpdate he hph] at ha
    change append (operandBytes s.data n) (s.counted n) = .ok t at ha
    have hbytes := operandBytes_length s.data n
    have htotal : (s.counted n).totalLen.toNat = s.totalLen.toNat + n.val := totalLen_add _ n ht
    have hlen : (s.counted n).bufLen.toNat = s.bufLen.toNat := rfl
    have hmod := h.lenAgrees hph
    rcases append_inv (by rw [hbytes]; omega) ha with ⟨hs, rfl⟩ | ⟨hs, front, -, rfl⟩
    · refine State.CountsOk.inv_idle ?_ he (h.idleRnd he) (h.idlePad he) (by simp [State.counted])
      exact countsOk_store h.bufWf h.bufFilled hs rfl (by omega) (by omega) rfl
    · have hdrop := List.length_drop (i := 64 - (s.counted n).bufLen.toNat) (l := operandBytes s.data n)
      refine State.CountsOk.inv_load ?_ _ _ (fun _ => rfl) (by simp) (by simp)
      exact countsOk_store h.bufWf (Memory.filledBelow_zero s.buf) (by omega) (by simp) (by omega) (by omega) rfl

theorem inv_finalEffect {s t : State} (h : s.Inv) (hf : finalEffect s = .ok t) : t.Inv := by
  rcases finalEffect_inv hf with ⟨-, rfl⟩ | ⟨hph, hp⟩
  · exact inv_raise .misuse h
  · obtain ⟨front, lb, -, -, rfl⟩ := startPadding_inv hp
    have hcounts : ({ s with phase := .finalizing }).CountsOk :=
      { h.countsOk with
        lenAgrees := fun _ => h.lenAgrees hph
        finalizedLen := by simp
        freshLen := by simp }
    refine hcounts.inv_load _ _ ?_ (fun _ => rfl) ?_
    · split <;> simp
    · split
      · simp
      · rename_i hlen
        intro
        simp only [padLimit] at hlen ⊢
        omega

/-- Every command performed keeps the invariant. -/
theorem inv_commandEffect {c : Command} {s t : State} (h : s.Inv) (he : s.eng = .idle)
    (hc : commandEffect c s = .ok t) : t.Inv := by
  cases c with
  | nop => cases hc; exact h
  | init => cases hc; exact inv_fresh h.bufWf he (h.idleRnd he) rfl rfl rfl rfl
  | update n => exact inv_updateEffect h he hc
  | final => exact inv_finalEffect h hc
  | illegal w => cases hc; exact inv_raise .illegal h

/-! ### The step -/

/-- Every step keeps the invariant. -/
theorem inv_step {s t : State} (h : s.Inv) (hs : step s = .next t) : t.Inv := by
  have hp := inv_present s.nextIn h
  obtain ⟨-, hcase⟩ := step_cases hs
  cases hcase with
  | reset _ next => exact next ▸ inv_resetEdge _
  | quiet _ _ u edge next => exact next ▸ inv_notAcked (inv_engineEdge hp edge)
  | held _ _ _ _ _ _ _ u edge next => exact next ▸ inv_notAcked (inv_engineEdge hp edge)
  | command _ _ _ _ _ _ idle u effect next => exact next ▸ inv_acked none (inv_commandEffect hp idle effect)
  | data _ _ _ _ w _ u edge next => exact next ▸ inv_acked none (inv_setData w (inv_engineEdge hp edge))
  | passive _ _ _ _ u edge value next => exact next ▸ inv_acked value (inv_engineEdge hp edge)

/-- Settles O42, by the cases of a step: the engine, each command and reset keep the invariant. -/
theorem stepKeepsTheInvariant : Obligations.StepKeepsTheInvariant := fun _ _ => inv_step

end Sys2Proof.Machine
end

section
/-! PROOFS. What an instruction does, by the command it carries; the invariant over a push and over FINAL; the block buffer's one writer. -/

namespace Sys2Proof.Machine

/-! ### The command an instruction carries -/

/-- The command an instruction performs while BUSY = 0: a command is its own, a write of CMD has its word's, and no other
access has one [41_commands.md R90]. -/
def Instr.command? : Instr → Option Command
  | .nop => some .nop
  | .init => some .init
  | .update n => some (.update n)
  | .final => some .final
  | .illegal w => some (.illegal w)
  | .wrCmd _ w => some (decodeCmd w)
  | _ => none

/-- An instruction that carries a command runs as that command's edge. -/
theorem exec_of_command? {i : Instr} {c : Command} (s : State) (h : Instr.command? i = some c) :
    exec i s = commandEdge (commandEffect c) s := by
  cases i with
  | wrCmd b w => cases h; exact exec_wrCmd b w s
  | nop | init | update n | final | illegal w => cases h; rfl
  | _ => cases h

/-- An instruction that carries no command is the engine's step with an access that writes at most DATA. -/
theorem exec_of_no_command? {i : Instr} (s : State) (h : Instr.command? i = none) :
    (∃ value, exec i s = accessEdge value id s) ∨ ∃ w, exec i s = accessEdge none (setData w) s := by
  cases i with
  | wrData b w => exact .inr ⟨w, exec_wrData b w s⟩
  | nop | init | update n | final | illegal w | wrCmd b w => cases h
  | _ => exact .inl (exec_passive _ s rfl)

/-- What an instruction can do when it goes on: its command performed, or the engine's step and at most a write of DATA. -/
theorem exec_inv {i : Instr} {s t : State} (h : exec i s = .next t) :
    (∃ c u, Instr.command? i = some c ∧ s.eng = .idle ∧ commandEffect c s = .ok u ∧ t = acked none u) ∨
    ∃ u, engineEdge s = .ok u ∧ (t = notAcked u ∨ (∃ value, t = acked value u) ∨ ∃ w, t = acked none (setData w u)) := by
  cases hc : Instr.command? i with
  | some c =>
    rw [exec_of_command? s hc] at h
    rcases commandEdge_inv h with ⟨-, u, hu, rfl⟩ | ⟨he, u, hu, rfl⟩
    · exact .inr ⟨u, hu, .inl rfl⟩
    · exact .inl ⟨c, u, rfl, he, hu, rfl⟩
  | none =>
    rcases exec_of_no_command? s hc with ⟨value, hx⟩ | ⟨w, hx⟩
    · obtain ⟨u, hu, rfl⟩ := accessEdge_inv (hx ▸ h)
      exact .inr ⟨u, hu, .inr (.inl ⟨value, rfl⟩)⟩
    · obtain ⟨u, hu, rfl⟩ := accessEdge_inv (hx ▸ h)
      exact .inr ⟨u, hu, .inr (.inr ⟨w, rfl⟩)⟩

/-! ### The invariant over several edges -/

theorem inv_exec {i : Instr} {s t : State} (h : s.Inv) (hx : exec i s = .next t) : t.Inv := by
  rcases exec_inv hx with ⟨c, u, -, he, hu, rfl⟩ | ⟨u, hu, rfl | ⟨value, rfl⟩ | ⟨w, rfl⟩⟩
  · exact inv_acked none (inv_commandEffect h he hu)
  · exact inv_notAcked (inv_engineEdge h hu)
  · exact inv_acked value (inv_engineEdge h hu)
  · exact inv_acked none (inv_setData w (inv_engineEdge h hu))

/-- One outcome after another goes on only if both do. -/
theorem andThen_inv {o : Host.Outcome State Fault Refusal} {f : State → Host.Outcome State Fault Refusal} {t : State}
    (h : andThen o f = .next t) : ∃ u, o = .next u ∧ f u = .next t := by
  cases o with
  | next u => exact ⟨u, rfl, h⟩
  | fault r => cases h
  | refused r => cases h

theorem inv_steps {n : Nat} {s t : State} (h : s.Inv) (hs : steps n s = .next t) : t.Inv := by
  induction n generalizing s with
  | zero => cases hs; exact h
  | succ n ih =>
    obtain ⟨u, hu, hs⟩ := andThen_inv hs
    exact ih (inv_step h hu) hs

theorem inv_pushOne {p : Push} {s t : State} (h : s.Inv) (hp : pushOne p s = .next t) : t.Inv := by
  obtain ⟨u, hu, hp⟩ := andThen_inv hp
  obtain ⟨v, hv, hp⟩ := andThen_inv hp
  exact inv_steps (inv_exec (inv_exec h hu) hv) hp

theorem inv_finish {s t : State} (h : s.Inv) (hf : finish s = .next t) : t.Inv := by
  obtain ⟨u, hu, hf⟩ := andThen_inv hf
  exact inv_steps (inv_exec h hu) hf

/-- Settles O51: what a push absorbs, with the invariant kept by each of its edges. -/
theorem pushAbsorbsItsBytes : Obligations.PushAbsorbsItsBytes := by
  intro s message p hi hq ha hm
  obtain ⟨t, ht, htq, hta⟩ := pushOne_absorbs (p := p) hq ha hm
  exact ⟨t, ht, inv_pushOne hi ht, htq, hta⟩

/-- The register index of `DIGESTi` returns `DIGEST(i)` [44_register_access.md R165]. -/
theorem regValue_digest (s : State) (i : BitVec 3) : s.regValue (1#1 ++ i) = s.digestWord i := by
  have hindex : ∀ i : BitVec 3, (1#1 ++ i).toNat = 8 + i.toNat := by decide
  have hlow : ∀ i : BitVec 3, (1#1 ++ i).extractLsb' 0 3 = i := by decide
  unfold State.regValue
  split
  case h_9 => rw [hlow]
  all_goals
    rename_i h
    rw [hindex] at h
    omega

/-- A digest read of an idle machine in phase FINALIZED returns the word of H [44_register_access.md R165]. -/
theorem exec_rdDigest_finalized {s : State} (i : BitVec 3) (b : BitVec 2) (he : s.eng = .idle)
    (hp : s.phase = .finalized) : exec (.rdDigest i b) s = .next (acked (some (s.h.get i)) s) := by
  have hx : exec (.rdDigest i b) s = accessEdge (some (s.regValue (1#1 ++ i))) id s := rfl
  rw [hx, accessEdge_ok _ _ (engineEdge_idle he), regValue_digest, State.digestWord, if_pos hp]
  rfl

/-- Settles O52: the digest FINAL gives, the invariant kept by each edge, and the reads of the digest. -/
theorem finishGivesTheDigest : Obligations.FinishGivesTheDigest := by
  intro s message hi hq ha
  obtain ⟨t, ht, htq, hphase, hlen, htotal, hh⟩ := finish_gives_digest hq ha (ha.total ▸ hi.totalLe)
  refine ⟨t, ht, inv_finish hi ht, htq, hphase, hlen, htotal, hh, fun i b => ?_⟩
  exact ⟨_, exec_rdDigest_finalized i b htq.idle hphase, by rw [acked_rdata, hh]⟩

/-! ### The block buffer's one writer -/

/-- No command but UPDATE stores to the block buffer [10_state.md R26]. -/
theorem commandEffect_buf {c : Command} {s t : State} (hc : ∀ n, c ≠ .update n) (h : commandEffect c s = .ok t) :
    t.buf = s.buf := by
  cases c with
  | nop | init | illegal w => cases h; simp
  | update n => exact absurd rfl (hc n)
  | final =>
    rcases finalEffect_inv h with ⟨-, rfl⟩ | ⟨-, h⟩
    · simp
    · obtain ⟨_, _, _, _, rfl⟩ := startPadding_inv h
      simp

/-- An instruction carries UPDATE only if it is one or a write of CMD with its word. -/
theorem command?_ne_update {i : Instr} {c : Command} (h : Instr.command? i = some c) (hi : ∀ n, i ≠ .update n)
    (hw : ∀ b w n, i = .wrCmd b w → decodeCmd w ≠ .update n) (n : Fin 5) : c ≠ .update n := by
  cases i with
  | wrCmd b w => cases h; exact hw b w n rfl
  | update m => exact absurd rfl (hi m)
  | nop | init | final | illegal w => cases h; simp
  | _ => cases h

/-- Settles O49: the engine's step and every command but UPDATE leave the buffer. -/
theorem onlyUpdateStoresToTheBuffer : Obligations.OnlyUpdateStoresToTheBuffer := by
  intro s t i hx hi hw a
  have hbuf : t.buf = s.buf := by
    rcases exec_inv hx with ⟨c, u, hc, -, hu, rfl⟩ | ⟨u, hu, ht⟩
    · exact (acked_buf none u).trans (commandEffect_buf (command?_ne_update hc hi hw) hu)
    · obtain ⟨hbuf, -⟩ := engineEdge_frame hu
      rcases ht with rfl | ⟨value, rfl⟩ | ⟨w, rfl⟩ <;> exact hbuf
  rw [hbuf]

end Sys2Proof.Machine
end

section
/-! PROOFS. What one step does to each piece of state: reset, one command, or the engine alone; and the STATUS word. -/

namespace Sys2Proof.Machine

/-! ### Reset -/

/-- A step with `rst = 1` that is not refused is the reset edge [70_reset_and_hazards.md R200]. -/
theorem step_reset {s : State} (hh : s.holdsRequest) (hr : s.nextIn.rst = true) :
    step s = .next (resetEdge (s.present s.nextIn)) := by
  rw [State.holdsRequest] at hh
  simp only [step, hh, hr, Bool.false_eq_true, if_false, if_true]

theorem resetEdge_status (s : State) : (resetEdge s).status = 0 := by
  show State.reset.status = 0
  decide

/-- Outside FINALIZED the digest output is 0 [44_register_access.md R165, R166]. -/
theorem digestOut_eq_zero {s : State} (h : s.phase ≠ .finalized) : s.digestOut = 0 := by
  simp only [State.digestOut, State.digestWord, if_neg h]
  rfl

/-- Settles O2: the step is the reset edge, whose fields are the reset values. -/
theorem resetEdgeGivesResetValues : Obligations.ResetEdgeGivesResetValues := by
  intro s hh hr
  refine ⟨_, step_reset hh hr, rfl, rfl, rfl, rfl, rfl, rfl, rfl, rfl, rfl, rfl, rfl, resetEdge_status _, ?_, rfl, rfl,
    rfl, rfl⟩
  exact digestOut_eq_zero (by simp)

/-! ### The STATUS word -/

/-- BUF_LEN of STATUS is `buf_len` [10_state.md R32]. -/
theorem status_bufLen (s : State) : s.status.extractLsb' 8 7 = s.bufLen := by
  refine BitVec.eq_of_getLsbD_eq fun i hi => ?_
  rw [BitVec.getLsbD_extractLsb', status_getLsbD]
  simp [hi, show ¬ 8 + i < 1 by omega, show ¬ 8 + i < 3 by omega, show ¬ 8 + i < 4 by omega,
    show ¬ 8 + i < 5 by omega, show ¬ 8 + i < 6 by omega, show ¬ 8 + i < 7 by omega, show 8 + i < 15 by omega]

/-- STATUS as a sum of its fields, each shifted to its place [10_state.md R32]. -/
theorem status_eq_fields (s : State) :
    s.status = (s.bufLen.setWidth 32 <<< 8) ||| ((if s.errCapacity then 1#32 else 0) <<< 6) |||
      ((if s.errMisuse then 1#32 else 0) <<< 5) ||| ((if s.errIllegal then 1#32 else 0) <<< 4) |||
      ((if s.phase = .finalized then 1#32 else 0) <<< 3) ||| (s.phase.code.setWidth 32 <<< 1) |||
      (if s.eng = .compress then 1#32 else 0) := by
  have hflag : ∀ (p : Prop) [Decidable p] (i : Nat), (if p then 1#32 else 0).getLsbD i = (decide p && decide (i = 0)) := by
    intro p _ i
    by_cases hp : p <;> simp [hp]
  refine BitVec.eq_of_getLsbD_eq fun i hi => ?_
  rw [status_getLsbD]
  simp only [BitVec.getLsbD_or, BitVec.getLsbD_shiftLeft, hflag, BitVec.getLsbD_setWidth, State.busy, State.digestValid]
  interval_cases i <;> simp [beq_eq_decide]

/-- Settles O39: the fields of STATUS, and the write to it that is ignored. -/
theorem statusIsComposed : Obligations.StatusIsComposed := by
  refine fun s => ⟨status_eq_fields s, fun hok b w => ?_⟩
  obtain ⟨u, hu⟩ := engineEdge_ok hok
  exact ⟨_, _, accessEdge_ok none id hu, (accessEdge_onlyEngine none hu).1, idleEdge_ok hu, rfl⟩

/-- The engine works only in phases ACCUMULATING and FINALIZING [43_streaming_driver.md R143, R146]. -/
theorem State.Inv.busyPhase {s : State} (h : s.Inv) (he : s.eng = .compress) :
    s.phase = .accumulating ∨ s.phase = .finalizing := by
  by_cases hp : s.pad = .pNone
  · exact .inl (h.dataPhase he hp)
  · exact .inr (h.padPhase he hp)

/-- Settles O40, from the invariant of the state after the step. -/
theorem statusCombinationsNeverOccur : Obligations.StatusCombinationsNeverOccur := by
  intro s t hi hs
  have ht := inv_step hi hs
  rw [status_bufLen]
  refine ⟨fun ⟨hp, hb⟩ => ?_, fun ⟨hp, hb⟩ => ?_, fun ⟨hp, hb⟩ => ?_, Nat.le_of_lt_succ ht.bufLenLt, ht.finalizedLen⟩
  · rcases engine_cases t with he | he
    · exact ht.idlePhase he hp
    · rw [busy_compress he] at hb
      cases hb
  · rcases ht.busyPhase (busy_iff.1 hb) with h | h <;> rw [hp] at h <;> cases h
  · rcases ht.busyPhase (busy_iff.1 hb) with h | h <;> rw [hp] at h <;> cases h

/-! ### Reset, one command, or the engine -/

/-- What a step that goes on does to the block, with `p` the state that has taken the edge's input. -/
inductive StepEffect (s p t : State) : Prop where
  /-- `rst = 1`. -/
  | reset (rst : s.nextIn.rst = true) (next : t = resetEdge p)
  /-- The command `c` is performed. -/
  | command (rst : s.nextIn.rst = false) (c : Command) (performed : ∀ c', s.performs c' ↔ c = c') (u : State)
      (effect : commandEffect c p = .ok u) (next : t = acked none u)
  /-- No command is performed: the engine's step, beside at most a write of DATA. -/
  | engine (rst : s.nextIn.rst = false) (unperformed : ∀ c, ¬ s.performs c) (u : State) (edge : engineEdge p = .ok u)
      (next : t.block = { u.block with data := t.data })

theorem step_effect {s t : State} (h : step s = .next t) : StepEffect s (s.present s.nextIn) t := by
  obtain ⟨-, hcase⟩ := step_cases h
  cases hcase with
  | reset rst next => exact .reset rst next
  | quiet rst req u edge next => exact .engine rst (not_performs_none req) u edge (next ▸ rfl)
  | held rst a req b w dec busy u edge next => exact .engine rst (not_performs_busy busy) u edge (next ▸ rfl)
  | command rst a req b w dec idle u effect next =>
    exact .command rst _ (performs_iff rst req dec idle) u effect next
  | data rst a req b w dec u edge next =>
    exact .engine rst (not_performs_access req (by simp [dec])) u edge (next ▸ rfl)
  | passive rst a req dec u edge value next =>
    refine .engine rst (not_performs_access req fun b w hd => ?_) u edge (next ▸ rfl)
    rw [hd] at dec
    cases dec

/-! ### What the commands write -/

/-- What `Append` never writes. -/
theorem append_frame {bytes : List Byte} {s t : State} (hb : bytes.length ≤ 4) (h : append bytes s = .ok t) :
    t.h = s.h ∧ t.totalLen = s.totalLen ∧ t.errIllegal = s.errIllegal ∧ t.errMisuse = s.errMisuse ∧
      t.errCapacity = s.errCapacity := by
  rcases append_inv hb h with ⟨-, rfl⟩ | ⟨-, front, -, rfl⟩ <;> simp

/-- What `StartPadding` never writes. -/
theorem startPadding_frame {s t : State} (h : startPadding s = .ok t) :
    t.h = s.h ∧ t.totalLen = s.totalLen ∧ t.errIllegal = s.errIllegal ∧ t.errMisuse = s.errMisuse ∧
      t.errCapacity = s.errCapacity := by
  obtain ⟨front, lb, -, -, rfl⟩ := startPadding_inv h
  simp

theorem operandBytes_le (data : Word) (n : Fin 5) : (operandBytes data n).length ≤ 4 := by
  rw [operandBytes_length]
  omega

/-- No command but INIT writes H [10_state.md R20]. -/
theorem commandEffect_h {c : Command} {s t : State} (hc : c ≠ .init) (h : commandEffect c s = .ok t) : t.h = s.h := by
  cases c with
  | nop | illegal w => cases h; simp
  | init => exact absurd rfl hc
  | update n =>
    rcases updateEffect_inv h with ⟨-, rfl⟩ | ⟨-, -, rfl⟩ | ⟨-, -, ha⟩
    · simp
    · simp
    · exact (append_frame (operandBytes_le _ _) ha).1
  | final =>
    rcases finalEffect_inv h with ⟨-, rfl⟩ | ⟨-, hp⟩
    · simp
    · exact (startPadding_frame hp).1

/-- The engine writes H only at its feed-forward [42_block_compressor.md R126]. -/
theorem engineEdge_h {s t : State} (h : engineEdge s = .ok t) (hne : t.h ≠ s.h) : s.eng = .compress ∧ s.rnd = 64 := by
  rcases engineEdge_inv h with ⟨-, rfl⟩ | ⟨-, -, rfl⟩ | ⟨he, hr, -⟩
  · exact absurd rfl hne
  · exact absurd (roundStep_h s) hne
  · exact ⟨he, hr⟩

/-- Settles O44: INIT and reset give IV, no other command writes H, and the engine only at its feed-forward. -/
theorem hashWordsHaveThreeWriters : Obligations.HashWordsHaveThreeWriters := by
  intro s t hs
  cases step_effect hs with
  | reset rst next => exact ⟨fun _ => next ▸ resetEdge_h _, fun _ => .inl rst⟩
  | command rst c performed u effect next =>
    subst next
    simp only [performed, rst, Bool.false_eq_true, false_or]
    by_cases hc : c = .init
    · subst hc
      cases effect
      exact ⟨fun _ => rfl, fun _ => .inl rfl⟩
    · exact ⟨fun h => absurd h hc, fun hne => absurd (commandEffect_h hc effect) hne⟩
  | engine rst unperformed u edge next =>
    have hh : t.h = u.h := (congrArg State.h next :)
    simp only [unperformed, rst, Bool.false_eq_true, false_or]
    exact ⟨False.elim, fun hne => engineEdge_h (s := s.present s.nextIn) edge (hh ▸ hne)⟩

/-! ### The error flags -/

/-- Each flag after a command other than INIT: set by its own cause, else as it was [60_exceptions.md R180 to R183]. -/
theorem commandEffect_flags {c : Command} {s t : State} (hc : c ≠ .init) (h : commandEffect c s = .ok t) :
    (t.errIllegal = true ↔ s.errIllegal = true ∨ ∃ w, c = .illegal w) ∧
    (t.errMisuse = true ↔ s.errMisuse = true ∨ (s.phase = .finalized ∧ (c = .final ∨ ∃ n, c = .update n))) ∧
    (t.errCapacity = true ↔ s.errCapacity = true ∨
      (s.phase ≠ .finalized ∧ ∃ n, c = .update n ∧ maxBytes < s.totalLen.toNat + n.val)) := by
  cases c with
  | nop | illegal w => cases h; simp
  | init => exact absurd rfl hc
  | update n =>
    rcases updateEffect_inv h with ⟨hp, rfl⟩ | ⟨hp, hm, rfl⟩ | ⟨hp, hm, ha⟩
    · simp [hp]
    · simp [hp, hm]
    · obtain ⟨-, -, hill, hmis, hcap⟩ := append_frame (operandBytes_le _ _) ha
      simp [hill, hmis, hcap, hp, Nat.not_lt.2 hm]
  | final =>
    rcases finalEffect_inv h with ⟨hp, rfl⟩ | ⟨hp, hpad⟩
    · simp [hp]
    · obtain ⟨-, -, hill, hmis, hcap⟩ := startPadding_frame hpad
      simp [hill, hmis, hcap, hp]

/-- The flags are their STATUS bits [10_state.md R32]. -/
theorem status_flags (s : State) : s.status.getLsbD 4 = s.errIllegal ∧ s.status.getLsbD 5 = s.errMisuse ∧
    s.status.getLsbD 6 = s.errCapacity :=
  ⟨status_getLsbD s 4, status_getLsbD s 5, status_getLsbD s 6⟩

/-- Settles O46: a command sets each flag by its cause, INIT and reset clear it, the engine leaves it. -/
theorem errorFlagsAreSticky : Obligations.ErrorFlagsAreSticky := by
  intro s t hs
  cases step_effect hs with
  | reset rst next =>
    subst next
    exact ⟨fun _ => ⟨rfl, rfl, rfl⟩, fun h => absurd (.inl rst) h, status_flags _⟩
  | command rst c performed u effect next =>
    subst next
    simp only [performed, rst, Bool.false_eq_true, false_or]
    refine ⟨fun hc => ?_, fun hc => commandEffect_flags (s := s.present s.nextIn) (t := u) hc effect,
      status_flags _⟩
    subst hc
    cases effect
    exact ⟨rfl, rfl, rfl⟩
  | engine rst unperformed u edge next =>
    obtain ⟨-, -, -, hill, hmis, hcap, -⟩ := engineEdge_frame edge
    have hill : t.errIllegal = s.errIllegal := Eq.trans (congrArg State.errIllegal next :) hill
    have hmis : t.errMisuse = s.errMisuse := Eq.trans (congrArg State.errMisuse next :) hmis
    have hcap : t.errCapacity = s.errCapacity := Eq.trans (congrArg State.errCapacity next :) hcap
    refine ⟨fun h => ?_, fun _ => ?_, status_flags t⟩
    · simp [unperformed, rst] at h
    · simp [unperformed, hill, hmis, hcap]

/-! ### DATA -/

/-- DATA after an edge with `rst = 0`: the word of a write to it, else as it was [10_state.md R30]. -/
theorem step_data {s t : State} (hs : step s = .next t) (hr : s.nextIn.rst = false) :
    (∃ a b w, s.nextIn.req = some a ∧ decodeAccess a = .wrData b w ∧ t.data = w) ∨
    ((¬∃ a b w, s.nextIn.req = some a ∧ decodeAccess a = .wrData b w) ∧ t.data = s.data) := by
  have kept : ∀ u, engineEdge (s.present s.nextIn) = .ok u → u.data = s.data := fun u hu => by
    obtain ⟨-, -, hdata, -⟩ := engineEdge_frame hu
    exact hdata
  obtain ⟨-, hcase⟩ := step_cases hs
  cases hcase with
  | reset rst next => rw [hr] at rst; cases rst
  | quiet _ req u edge next => exact .inr ⟨by simp [req], next ▸ kept u edge⟩
  | held _ a req b w dec _ u edge next => exact .inr ⟨by simp [req, dec], next ▸ kept u edge⟩
  | command _ a req b w dec _ u effect next => exact .inr ⟨by simp [req, dec], next ▸ (commandEffect_frame effect).1⟩
  | data _ a req b w dec u edge next => exact .inl ⟨a, b, w, req, dec, next ▸ rfl⟩
  | passive _ a req dec u edge value next =>
    refine .inr ⟨?_, next ▸ kept u edge⟩
    rintro ⟨a', b, w, ha, hd⟩
    rw [req] at ha
    cases ha
    rw [hd] at dec
    cases dec

/-- Settles O47: the two writers of DATA are the write to it and reset. -/
theorem dataHasTwoWriters : Obligations.DataHasTwoWriters := by
  intro s t hs
  refine ⟨fun hr => ?_, fun hr a b w ha hd => ?_, fun hr hnone => ?_⟩
  · cases step_effect hs with
    | reset rst next => exact next ▸ resetEdge_data _
    | command rst | engine rst => rw [hr] at rst; cases rst
  · rcases step_data hs hr with ⟨a', b', w', ha', hd', hw⟩ | ⟨hnone, -⟩
    · rw [ha] at ha'
      cases ha'
      rw [hd] at hd'
      cases hd'
      exact hw
    · exact absurd ⟨a, b, w, ha, hd⟩ hnone
  · rcases step_data hs hr with ⟨a, b, w, ha, hd, -⟩ | ⟨-, hkept⟩
    · exact absurd ⟨a, b, w, ha, hd⟩ hnone
    · exact hkept

/-! ### The byte count -/

/-- An accepted UPDATE counts its bytes [41_commands.md R94]. -/
theorem updateEffect_totalLen {n : Fin 5} {s t : State} (hp : s.phase ≠ .finalized)
    (hm : s.totalLen.toNat + n.val ≤ maxBytes) (h : updateEffect n s = .ok t) :
    t.totalLen.toNat = s.totalLen.toNat + n.val := by
  rw [updateEffect_append n s hp hm] at h
  obtain ⟨-, htotal, -⟩ := append_frame (operandBytes_le _ _) h
  rw [htotal]
  exact totalLen_add _ n hm

/-- No command but INIT and an accepted UPDATE changes the byte count [10_state.md R28]. -/
theorem commandEffect_totalLen {c : Command} {s t : State} (hc : c ≠ .init)
    (hu : ¬∃ n, c = .update n ∧ s.phase ≠ .finalized ∧ s.totalLen.toNat + n.val ≤ maxBytes)
    (h : commandEffect c s = .ok t) : t.totalLen = s.totalLen := by
  cases c with
  | nop | illegal w => cases h; simp
  | init => exact absurd rfl hc
  | update n =>
    rcases updateEffect_inv h with ⟨-, rfl⟩ | ⟨-, -, rfl⟩ | ⟨hp, hm, -⟩
    · simp
    · simp
    · exact absurd ⟨n, rfl, hp, hm⟩ hu
  | final =>
    rcases finalEffect_inv h with ⟨-, rfl⟩ | ⟨-, hp⟩
    · simp
    · exact (startPadding_frame hp).2.1

/-- LEN_HI and LEN_LO are the halves of the byte count [10_state.md R33]. -/
theorem lenHi_append_lenLo (s : State) : s.lenHi ++ s.lenLo = s.totalLen := by
  refine BitVec.eq_of_getLsbD_eq fun i hi => ?_
  simp only [State.lenHi, State.lenLo, BitVec.getLsbD_append, BitVec.getLsbD_extractLsb']
  by_cases h : i < 32
  · simp [h]
  · simp [h, show i - 32 < 32 by omega, show 32 + (i - 32) = i by omega]

theorem lenHi_le {s : State} (h : s.totalLen.toNat ≤ maxBytes) : s.lenHi.toNat ≤ 0x1FFFFFFF := by
  simp only [maxBytes] at h
  rw [State.lenHi, BitVec.extractLsb'_toNat, Nat.shiftRight_eq_div_pow]
  omega

/-- Settles O48: reset, INIT and an accepted UPDATE write the byte count; its bound is the invariant's. -/
theorem byteCountIsOfAcceptedUpdates : Obligations.ByteCountIsOfAcceptedUpdates := by
  intro s t hi hs
  have hle := (inv_step hi hs).totalLe
  have hview := And.intro hle (And.intro (lenHi_append_lenLo t) (lenHi_le hle))
  cases step_effect hs with
  | reset rst next =>
    refine ⟨fun _ => next ▸ resetEdge_totalLen _, fun n hn => ?_, fun h => absurd (.inl rst) h, hview⟩
    obtain ⟨hr, -⟩ := hn
    rw [hr] at rst
    cases rst
  | command rst c performed u effect next =>
    subst next
    simp only [performed, rst, Bool.false_eq_true, false_or]
    refine ⟨fun hc => ?_, fun n hc hp hm => ?_, fun hc hu => ?_, hview⟩
    · subst hc
      cases effect
      rfl
    · subst hc
      exact updateEffect_totalLen (s := s.present s.nextIn) (t := u) hp hm effect
    · exact commandEffect_totalLen (s := s.present s.nextIn) (t := u) hc hu effect
  | engine rst unperformed u edge next =>
    obtain ⟨-, htotal, -⟩ := engineEdge_frame edge
    have htotal : t.totalLen = s.totalLen := Eq.trans (congrArg State.totalLen next :) htotal
    simp only [unperformed, rst, Bool.false_eq_true, false_or]
    exact ⟨False.elim, fun _ => False.elim, fun _ _ => htotal, hview⟩

end Sys2Proof.Machine
end

section
/-! PROOFS. The packing of message bytes into DATA and the operand UPDATE takes back from it. -/

namespace Sys2Proof.Machine

/-- The bytes of a word made of four bytes are those bytes [00_scope.md R8]. -/
theorem be32bytes_append (a b c d : Byte) : be32bytes (a ++ b ++ c ++ d) = [a, b, c, d] := by
  have ha : (a ++ b ++ c ++ d).extractLsb' 24 8 = a := by
    rw [BitVec.extractLsb'_append_eq_of_le (by decide), BitVec.extractLsb'_append_eq_of_le (by decide)]
    exact BitVec.extractLsb'_append_eq_left
  have hb : (a ++ b ++ c ++ d).extractLsb' 16 8 = b := by
    rw [BitVec.extractLsb'_append_eq_of_le (by decide), BitVec.extractLsb'_append_eq_of_le (by decide)]
    exact BitVec.extractLsb'_append_eq_right
  have hc : (a ++ b ++ c ++ d).extractLsb' 8 8 = c := by
    rw [BitVec.extractLsb'_append_eq_of_le (by decide)]
    exact BitVec.extractLsb'_append_eq_right
  have hd : (a ++ b ++ c ++ d).extractLsb' 0 8 = d := BitVec.extractLsb'_append_eq_right
  simp only [be32bytes, List.cons.injEq, and_true]
  exact ⟨ha, hb, hc, hd⟩

/-- The bytes of `be32(s, i)` are the four bytes of `s` from byte `i` [00_scope.md R8]. -/
theorem be32bytes_be32 {s : List Byte} {i : Nat} (h : i + 4 ≤ s.length) :
    be32bytes (be32 s i) = (s.drop i).take 4 := by
  rw [be32, be32bytes_append]
  iterate 4
    rw [List.getD_eq_getElem _ _ (by omega), List.drop_eq_getElem_cons (by omega), List.take_succ_cons]
  rw [List.take_zero]

/-- The operand of a packed group is the front of the group with its unused lanes 0 [20_memory.md R55, R56]. -/
theorem operandBytes_packBytes (s : List Byte) (n : Fin 5) :
    operandBytes (packBytes s) n = (s ++ zeros 4).take n.val := by
  rw [operandBytes, packBytes, be32bytes_be32 (by simp), List.drop_zero, List.take_take,
    Nat.min_eq_left (by omega)]

/-- Settles O55: a group's bytes come before the lanes the packing fills with 0. -/
theorem packedBytesAreTheOperand : Obligations.PackedBytesAreTheOperand := by
  intro g h
  rw [operandBytes_packBytes, List.take_left]

end Sys2Proof.Machine
end

section
/-! PROOFS. Command words: decoding and encoding are inverse, and the eight legal words. -/

namespace Sys2Proof.Machine

/-- A command word is its three fields, RSV, NBYTES and OP [30_encoding.md R71]. -/
theorem cmdFields_append (w : Word) : cmdRsv w ++ cmdNBytes w ++ cmdOp w = w := by
  rw [cmdRsv, cmdNBytes, cmdOp, BitVec.extractLsb'_append_extractLsb'_eq_extractLsb' (by decide),
    BitVec.extractLsb'_append_extractLsb'_eq_extractLsb' (by decide)]
  exact BitVec.extractLsb'_eq_self

/-- The word of an UPDATE by its fields [30_encoding.md R71, R75]. -/
theorem encodeCmd_update (n : BitVec 3) (h : n.toNat < 5) : encodeCmd (.update ⟨n.toNat, h⟩) = 0#25 ++ n ++ 2#4 := by
  revert n
  decide

/-- A command word is the encoding of the command it decodes to: each branch of the decoder fixes the fields. -/
theorem encodeCmd_decodeCmd (w : Word) : encodeCmd (decodeCmd w) = w := by
  conv_rhs => rw [← cmdFields_append w]
  unfold decodeCmd
  split
  · exact (cmdFields_append w).symm
  next hrsv =>
    have hrsv : cmdRsv w = 0 := not_not.mp hrsv
    split
    next h => rw [hrsv, h.1, h.2]; rfl
    split
    next h => rw [hrsv, h.1, h.2]; rfl
    split
    next h => rw [hrsv, h.1]; exact encodeCmd_update _ h.2
    split
    next h => rw [hrsv, h.1, h.2]; rfl
    · exact (cmdFields_append w).symm

theorem decodeCmd_illegal {w w' : Word} (h : decodeCmd w = .illegal w') : w' = w := by
  rw [← encodeCmd_decodeCmd w, h]
  rfl

/-- The command of a legal word is not `illegal` [30_encoding.md R75]. -/
theorem decodeCmd_ne_illegal {w : Word} (h : w ∈ legalCommandWords) : decodeCmd w ≠ .illegal w := by
  have hall : legalCommandWords.all (fun w => decide (decodeCmd w ≠ .illegal w)) = true := by decide
  exact of_decide_eq_true (List.all_eq_true.1 hall w h)

/-- The word of a command other than `illegal` is legal [30_encoding.md R75]. -/
theorem encodeCmd_mem_legalCommandWords {c : Command} (h : ∀ w, c ≠ .illegal w) : encodeCmd c ∈ legalCommandWords := by
  rw [← List.contains_iff_mem]
  cases c with
  | nop => decide
  | init => decide
  | update n => clear h; revert n; decide
  | final => decide
  | illegal w => exact absurd rfl (h w)

theorem wellFormed_illegal_iff (w : Word) : Instr.wellFormed (.illegal w) = true ↔ w ∉ legalCommandWords := by
  simp [Instr.wellFormed]

/-- A command word decodes to a well-formed instruction [30_encoding.md R75, R76]. -/
theorem wellFormed_decodeCmd (w : Word) : (decodeCmd w).toInstr.wellFormed = true := by
  cases h : decodeCmd w with
  | illegal w' =>
    cases decodeCmd_illegal h
    exact (wellFormed_illegal_iff w).2 fun hmem => decodeCmd_ne_illegal hmem h
  | _ => rfl

/-- The word of a well-formed command decodes to it [30_encoding.md R75]. -/
theorem decodeCmd_encodeCmd {c : Command} (hc : c.toInstr.wellFormed = true) : decodeCmd (encodeCmd c) = c := by
  cases c with
  | nop => decide
  | init => decide
  | update n => clear hc; revert n; decide
  | final => decide
  | illegal w =>
    by_contra hne
    have hmem : encodeCmd (decodeCmd w) ∈ legalCommandWords :=
      encodeCmd_mem_legalCommandWords fun w' h => hne (by cases decodeCmd_illegal h; exact h)
    rw [encodeCmd_decodeCmd] at hmem
    exact (wellFormed_illegal_iff w).1 hc hmem

/-- A word decodes to a well-formed command exactly if it is its encoding [30_encoding.md R75]. -/
theorem decodeCmd_eq_iff {c : Command} (hc : c.toInstr.wellFormed = true) (w : Word) :
    decodeCmd w = c ↔ w = encodeCmd c :=
  ⟨fun h => h ▸ (encodeCmd_decodeCmd w).symm, fun h => h ▸ decodeCmd_encodeCmd hc⟩

/-- While IDLE an illegal word only raises ERR_ILLEGAL [60_exceptions.md R180]. -/
theorem exec_wrCmd_illegal {w w' : Word} (b : BitVec 2) {s : State} (hd : decodeCmd w = .illegal w')
    (he : s.eng = .idle) : exec (.wrCmd b w) s = .next (acked none (raise .illegal s)) := by
  rw [exec_wrCmd, hd]
  exact commandEdge_idle he rfl

/-- Settles O10: each clause is that a word decodes to a well-formed command exactly if it is its encoding. -/
theorem legalCommandWordsAreTheEight : Obligations.LegalCommandWordsAreTheEight := by
  intro w
  refine ⟨decodeCmd_eq_iff rfl w, decodeCmd_eq_iff rfl w, decodeCmd_eq_iff rfl w, fun n => decodeCmd_eq_iff rfl w,
    fun hw => ?_⟩
  have hd : decodeCmd w = .illegal w := (decodeCmd_eq_iff (c := .illegal w) ((wellFormed_illegal_iff w).2 hw) w).2 rfl
  exact ⟨hd, fun b s he => ⟨_, exec_wrCmd_illegal b hd he, rfl⟩⟩

end Sys2Proof.Machine
end

section
/-! PROOFS. Access descriptors: their fields, and the thirteen rows of the opcode table they share out. -/

namespace Sys2Proof.Machine

@[simp] theorem accWrites_descriptorOf (v : BitVec 1) (a : BitVec 4) (b : BitVec 2) :
    accWrites (descriptorOf v a b) = v.getLsbD 0 := by
  revert v a b; decide

@[simp] theorem accReg_descriptorOf (v : BitVec 1) (a : BitVec 4) (b : BitVec 2) :
    accReg (descriptorOf v a b) = a := by
  revert v a b; decide

@[simp] theorem accLow_descriptorOf (v : BitVec 1) (a : BitVec 4) (b : BitVec 2) :
    accLow (descriptorOf v a b) = b := by
  revert v a b; decide

/-- The thirteen BUS rows of the opcode table: a descriptor by its fields, the word a write carries (a read ignores it),
and the instruction [30_encoding.md R70, R81]. -/
inductive BusRow : BitVec 7 → Word → Instr → Prop where
  | wrCmd (b : BitVec 2) (w : Word) : BusRow (descriptorOf 1 0 b) w (.wrCmd b w)
  | wrData (b : BitVec 2) (w : Word) : BusRow (descriptorOf 1 1 b) w (.wrData b w)
  | wrIgnoredStatus (x : BitVec 1) (b : BitVec 2) (w : Word) :
      BusRow (descriptorOf 1 (0b001#3 ++ x) b) w (.wrIgnoredStatus x b w)
  | wrIgnoredLen (x : BitVec 2) (b : BitVec 2) (w : Word) :
      BusRow (descriptorOf 1 (0b01#2 ++ x) b) w (.wrIgnoredLen x b w)
  | wrIgnoredDigest (x : BitVec 3) (b : BitVec 2) (w : Word) :
      BusRow (descriptorOf 1 (0b1#1 ++ x) b) w (.wrIgnoredDigest x b w)
  | rdCmd (b : BitVec 2) (w : Word) : BusRow (descriptorOf 0 0 b) w (.rdCmd b)
  | rdData (b : BitVec 2) (w : Word) : BusRow (descriptorOf 0 1 b) w (.rdData b)
  | rdStatus (b : BitVec 2) (w : Word) : BusRow (descriptorOf 0 2 b) w (.rdStatus b)
  | rdReserved (b : BitVec 2) (w : Word) : BusRow (descriptorOf 0 3 b) w (.rdReserved b)
  | rdLenLo (b : BitVec 2) (w : Word) : BusRow (descriptorOf 0 4 b) w (.rdLenLo b)
  | rdLenHi (b : BitVec 2) (w : Word) : BusRow (descriptorOf 0 5 b) w (.rdLenHi b)
  | rdReservedHigh (x : BitVec 1) (b : BitVec 2) (w : Word) :
      BusRow (descriptorOf 0 (0b011#3 ++ x) b) w (.rdReservedHigh x b)
  | rdDigest (i : BitVec 3) (b : BitVec 2) (w : Word) : BusRow (descriptorOf 0 (0b1#1 ++ i) b) w (.rdDigest i b)

/-- A concatenation as a number. -/
theorem toNat_append_eq_add {m n : Nat} (x : BitVec m) (y : BitVec n) :
    (x ++ y).toNat = x.toNat * 2 ^ n + y.toNat := by
  rw [BitVec.toNat_append, ← Nat.shiftLeft_add_eq_or_of_lt y.isLt, Nat.shiftLeft_eq]

theorem extractLsb'_descriptorOf {n : Nat} (h : n ≤ 4) (v : BitVec 1) (a : BitVec 4) (b : BitVec 2) :
    (descriptorOf v a b).extractLsb' 2 n = a.extractLsb' 0 n := by
  rw [descriptorOf, BitVec.extractLsb'_append_eq_of_le (by decide), BitVec.extractLsb'_append_eq_of_add_le (by omega)]

/-- A register index whose low bits a row leaves open: its range and those bits. -/
theorem registerIndex_open {m n c : Nat} (a : BitVec m) (x : BitVec n) (hc : a.toNat = c) :
    (a ++ x).toNat = c * 2 ^ n + x.toNat ∧ x.toNat < 2 ^ n ∧ (a ++ x).extractLsb' 0 n = x :=
  ⟨hc ▸ toNat_append_eq_add a x, x.isLt, BitVec.extractLsb'_append_eq_right⟩

/-- A descriptor of a row decodes to the row's instruction [30_encoding.md R81]. -/
theorem BusRow.decode {acc : BitVec 7} {w : Word} {i : Instr} (h : BusRow acc w i) : decodeDescriptor acc w = i := by
  cases h with
  | wrIgnoredStatus x b =>
    obtain ⟨hn, hlt, hx⟩ := registerIndex_open (c := 1) 0b001#3 x rfl
    simp (disch := omega) [decodeDescriptor, extractLsb'_descriptorOf, if_neg, if_pos, hx]
  | wrIgnoredLen x b =>
    obtain ⟨hn, hlt, hx⟩ := registerIndex_open (c := 1) 0b01#2 x rfl
    simp (disch := omega) [decodeDescriptor, extractLsb'_descriptorOf, if_neg, if_pos, hx]
  | wrIgnoredDigest x b =>
    obtain ⟨hn, hlt, hx⟩ := registerIndex_open (c := 1) 0b1#1 x rfl
    simp (disch := omega) [decodeDescriptor, extractLsb'_descriptorOf, if_neg, hx]
  | rdReservedHigh x b =>
    obtain ⟨hn, hlt, hx⟩ := registerIndex_open (c := 3) 0b011#3 x rfl
    simp (disch := omega) [decodeDescriptor, extractLsb'_descriptorOf, if_neg, if_pos, hx]
  | rdDigest k b =>
    obtain ⟨hn, hlt, hx⟩ := registerIndex_open (c := 1) 0b1#1 k rfl
    simp (disch := omega) [decodeDescriptor, extractLsb'_descriptorOf, if_neg, hx]
  | _ => simp [decodeDescriptor]

theorem BusRow.wellFormed {acc : BitVec 7} {w : Word} {i : Instr} (h : BusRow acc w i) : i.wellFormed = true := by
  cases h <;> rfl

/-- Every descriptor lies in a row [30_encoding.md R76]: the rows of the writes, and those of the reads, share out the
register indices. -/
theorem exists_busRow (acc : BitVec 7) (w : Word) : ∃ i, BusRow acc w i := by
  obtain ⟨v, a, b, rfl⟩ : ∃ v a b, acc = descriptorOf v a b :=
    ⟨acc.extractLsb' 6 1, accReg acc, accLow acc, by decide +revert⟩
  obtain rfl | rfl : v = 1 ∨ v = 0 := by decide +revert
  · obtain rfl | rfl | ⟨x, rfl⟩ | ⟨x, rfl⟩ | ⟨x, rfl⟩ : a = 0 ∨ a = 1 ∨ (∃ x : BitVec 1, a = 0b001#3 ++ x) ∨
        (∃ x : BitVec 2, a = 0b01#2 ++ x) ∨ ∃ x : BitVec 3, a = 0b1#1 ++ x := by decide +revert
    exacts [⟨_, .wrCmd b w⟩, ⟨_, .wrData b w⟩, ⟨_, .wrIgnoredStatus x b w⟩, ⟨_, .wrIgnoredLen x b w⟩,
      ⟨_, .wrIgnoredDigest x b w⟩]
  · obtain rfl | rfl | rfl | rfl | rfl | rfl | ⟨x, rfl⟩ | ⟨k, rfl⟩ : a = 0 ∨ a = 1 ∨ a = 2 ∨ a = 3 ∨ a = 4 ∨ a = 5 ∨
        (∃ x : BitVec 1, a = 0b011#3 ++ x) ∨ ∃ k : BitVec 3, a = 0b1#1 ++ k := by decide +revert
    exacts [⟨_, .rdCmd b w⟩, ⟨_, .rdData b w⟩, ⟨_, .rdStatus b w⟩, ⟨_, .rdReserved b w⟩, ⟨_, .rdLenLo b w⟩,
      ⟨_, .rdLenHi b w⟩, ⟨_, .rdReservedHigh x b w⟩, ⟨_, .rdDigest k b w⟩]

theorem BusRow.of_eq {acc d : BitVec 7} {w : Word} {i : Instr} (h : BusRow d w i) (hd : d = acc) : BusRow acc w i :=
  hd ▸ h

/-- Settles O11: a row's match and mask fix every field of the descriptor but the row's operands. -/
theorem descriptorRowsDecodeToTheirAccess : Obligations.DescriptorRowsDecodeToTheirAccess := by
  intro acc w
  refine ⟨fun h => ((BusRow.wrCmd _ w).of_eq ?_).decode,
    fun h => ((BusRow.wrData _ w).of_eq ?_).decode,
    fun h => ((BusRow.wrIgnoredStatus _ _ w).of_eq ?_).decode,
    fun h => ((BusRow.wrIgnoredLen _ _ w).of_eq ?_).decode,
    fun h => ((BusRow.wrIgnoredDigest _ _ w).of_eq ?_).decode,
    fun h => ((BusRow.rdCmd _ w).of_eq ?_).decode,
    fun h => ((BusRow.rdData _ w).of_eq ?_).decode,
    fun h => ((BusRow.rdStatus _ w).of_eq ?_).decode,
    fun h => ((BusRow.rdReserved _ w).of_eq ?_).decode,
    fun h => ((BusRow.rdLenLo _ w).of_eq ?_).decode,
    fun h => ((BusRow.rdLenHi _ w).of_eq ?_).decode,
    fun h => ((BusRow.rdReservedHigh _ _ w).of_eq ?_).decode,
    fun h => ((BusRow.rdDigest _ _ w).of_eq ?_).decode⟩
  all_goals decide +revert

/-- Settles O9: the fields of R82's words, and the row of its two descriptors. -/
theorem encodingExamplesDecode : Obligations.EncodingExamplesDecode :=
  ⟨by decide, by decide, by decide, by decide,
    fun w => ⟨(BusRow.rdDigest 5 0 w).decode, (BusRow.rdDigest 5 1 w).decode⟩, by decide, by decide, by decide⟩

end Sys2Proof.Machine
end

section
/-! PROOFS. The numbered words of the opcode table: decoding and encoding are inverse, and a word on the ports runs as its instruction. -/

namespace Sys2Proof.Machine

/-! ### The word of an instruction decodes to it -/

/-- The numbered word of a descriptor: a write carries its word above bit 7, a read has the descriptor alone
[30_encoding.md R70] (log 14). -/
def busTableWord (acc : BitVec 7) (w : Word) : TableWord :=
  if accWrites acc then ⟨40, (w ++ 0#1 ++ acc).toNat⟩ else ⟨8, acc.toNat⟩

theorem busTableWord_write {acc : BitVec 7} (h : accWrites acc = true) (w : Word) :
    busTableWord acc w = ⟨40, (w ++ 0#1 ++ acc).toNat⟩ := if_pos h

theorem busTableWord_read {acc : BitVec 7} (h : accWrites acc = false) (w : Word) :
    busTableWord acc w = ⟨8, acc.toNat⟩ := if_neg (by simp [h])

/-- The encoding of a row's instruction is the numbered word of its descriptor. -/
theorem BusRow.encode_eq {acc : BitVec 7} {w : Word} {i : Instr} (h : BusRow acc w i) :
    encode i = busTableWord acc w := by
  cases h with
  | wrCmd b | wrData b | wrIgnoredStatus x b | wrIgnoredLen x b | wrIgnoredDigest x b =>
    exact (busTableWord_write (accWrites_descriptorOf _ _ _) w).symm
  | rdCmd b | rdData b | rdStatus b | rdReserved b | rdLenLo b | rdLenHi b | rdReservedHigh x b | rdDigest k b =>
    exact (busTableWord_read (accWrites_descriptorOf _ _ _) w).symm

theorem decodeTableWord_command (w : Word) : decodeTableWord 32 w.toNat = some (decodeCmd w).toInstr := by
  have hlt : ¬ 2 ^ 32 ≤ w.toNat := Nat.not_le.2 w.isLt
  simp only [decodeTableWord, decodeWord, if_neg hlt, if_true, BitVec.ofNat_toNat, BitVec.setWidth_eq]
  rfl

theorem decodeTableWord_write {acc : BitVec 7} (h : accWrites acc = true) (w : Word) :
    decodeTableWord 40 (w ++ 0#1 ++ acc).toNat = some (decodeDescriptor acc w) := by
  have hlt : ¬ 2 ^ 40 ≤ (w ++ 0#1 ++ acc).toNat := Nat.not_le.2 (w ++ 0#1 ++ acc).isLt
  have hbit : (w ++ 0#1 ++ acc).toNat.testBit 7 = false := by
    rw [BitVec.testBit_toNat, BitVec.getLsbD_append, BitVec.getLsbD_append]
    rfl
  have hacc : BitVec.ofNat 7 (w ++ 0#1 ++ acc).toNat = acc := by
    rw [BitVec.ofNat_toNat, BitVec.setWidth_append_eq_right]
  have hw : BitVec.ofNat 32 ((w ++ 0#1 ++ acc).toNat >>> 8) = w := by
    show (w ++ 0#1 ++ acc).extractLsb' 8 32 = w
    rw [BitVec.extractLsb'_append_eq_of_le (by decide), BitVec.extractLsb'_append_eq_left]
  simp only [decodeTableWord, decodeWord, hlt, hbit, hacc, hw, h]
  rfl

theorem decodeTableWord_byte (acc : BitVec 7) : decodeTableWord 8 acc.toNat = some (decodeDescriptor acc 0) := by
  have hlt : ¬ 2 ^ 8 ≤ acc.toNat := by omega
  have hbit : acc.toNat.testBit 7 = false := by rw [BitVec.testBit_toNat, BitVec.getLsbD_of_ge _ _ (by decide)]
  have hw : acc.toNat >>> 8 = 0 := by rw [Nat.shiftRight_eq_div_pow]; omega
  simp only [decodeTableWord, decodeWord, hlt, hbit, hw, BitVec.ofNat_toNat, BitVec.setWidth_eq]
  rfl

theorem decodeDescriptor_read {acc : BitVec 7} (h : accWrites acc = false) (w w' : Word) :
    decodeDescriptor acc w = decodeDescriptor acc w' := by
  simp [decodeDescriptor, h]

theorem BusRow.decodeTableWord_encode {acc : BitVec 7} {w : Word} {i : Instr} (h : BusRow acc w i) :
    decodeTableWord (encode i).nbits (encode i).bits = some i := by
  rw [h.encode_eq]
  cases hw : accWrites acc with
  | true => rw [busTableWord_write hw, decodeTableWord_write hw, h.decode]
  | false => rw [busTableWord_read hw, decodeTableWord_byte, decodeDescriptor_read hw 0 w, h.decode]

theorem decodeTableWord_commandTableWord {c : Command} (h : c.toInstr.wellFormed = true) :
    decodeTableWord (commandTableWord c).nbits (commandTableWord c).bits = some c.toInstr :=
  (decodeTableWord_command (encodeCmd c)).trans (by rw [decodeCmd_encodeCmd h])

/-- Settles O12: a command word has one command, a descriptor lies in one row. -/
theorem decodeOfEncodeIsTheInstruction : Obligations.DecodeOfEncodeIsTheInstruction := by
  intro i hi
  cases i with
  | nop => exact decodeTableWord_commandTableWord (c := .nop) hi
  | init => exact decodeTableWord_commandTableWord (c := .init) hi
  | update n => exact decodeTableWord_commandTableWord (c := .update n) hi
  | final => exact decodeTableWord_commandTableWord (c := .final) hi
  | illegal w => exact decodeTableWord_commandTableWord (c := .illegal w) hi
  | wrCmd b w => exact (BusRow.wrCmd b w).decodeTableWord_encode
  | wrData b w => exact (BusRow.wrData b w).decodeTableWord_encode
  | wrIgnoredStatus x b w => exact (BusRow.wrIgnoredStatus x b w).decodeTableWord_encode
  | wrIgnoredLen x b w => exact (BusRow.wrIgnoredLen x b w).decodeTableWord_encode
  | wrIgnoredDigest x b w => exact (BusRow.wrIgnoredDigest x b w).decodeTableWord_encode
  | rdCmd b => exact (BusRow.rdCmd b 0).decodeTableWord_encode
  | rdData b => exact (BusRow.rdData b 0).decodeTableWord_encode
  | rdStatus b => exact (BusRow.rdStatus b 0).decodeTableWord_encode
  | rdReserved b => exact (BusRow.rdReserved b 0).decodeTableWord_encode
  | rdLenLo b => exact (BusRow.rdLenLo b 0).decodeTableWord_encode
  | rdLenHi b => exact (BusRow.rdLenHi b 0).decodeTableWord_encode
  | rdReservedHigh x b => exact (BusRow.rdReservedHigh x b 0).decodeTableWord_encode
  | rdDigest k b => exact (BusRow.rdDigest k b 0).decodeTableWord_encode

/-! ### A word that decodes is its instruction's encoding -/

/-- What the decoder of numbered words accepts, and what it answers (log 14). -/
theorem decodeTableWord_inv {nbits w : Nat} {i : Instr} (h : decodeTableWord nbits w = some i) : w < 2 ^ nbits ∧
    ((nbits = 32 ∧ i = (decodeCmd (BitVec.ofNat 32 w)).toInstr) ∨
      ((nbits = 8 ∨ nbits = 40) ∧ w.testBit 7 = false ∧ (nbits = 40 → accWrites (BitVec.ofNat 7 w) = true) ∧
        i = decodeDescriptor (BitVec.ofNat 7 w) (BitVec.ofNat 32 (w >>> 8)))) := by
  unfold decodeTableWord decodeWord at h
  split at h
  · cases h
  next hlt =>
    refine ⟨Nat.not_le.1 hlt, ?_⟩
    split at h
    next hn => cases h; exact .inl ⟨hn, rfl⟩
    split at h
    next hn =>
      split at h
      · cases h
      next hbit =>
        split at h
        · cases h
        next hread =>
          cases h
          exact .inr ⟨hn, by simpa using hbit, fun h40 => by simpa [h40] using hread, rfl⟩
    · cases h

theorem commandTableWord_bits {w : Nat} (h : w < 2 ^ 32) :
    (commandTableWord (decodeCmd (BitVec.ofNat 32 w))).bits = w := by
  show (encodeCmd (decodeCmd (BitVec.ofNat 32 w))).toNat = w
  rw [encodeCmd_decodeCmd, BitVec.toNat_ofNat, Nat.mod_eq_of_lt h]

theorem encode_toInstr (c : Command) : encode c.toInstr = commandTableWord c := by cases c <;> rfl

/-- A word of at most 40 bits with bit 7 clear is the numbered word of its descriptor; a read has 8 bits
[30_encoding.md R70] (log 14). -/
theorem busTableWord_bits {w : Nat} (h40 : w < 2 ^ 40) (hbit : w.testBit 7 = false)
    (hread : accWrites (BitVec.ofNat 7 w) = false → w < 2 ^ 8) :
    (busTableWord (BitVec.ofNat 7 w) (BitVec.ofNat 32 (w >>> 8))).bits = w := by
  have hbit : w / 128 % 2 = 0 := by
    rw [Nat.testBit_eq_decide_div_mod_eq, decide_eq_false_iff_not] at hbit
    omega
  cases hw : accWrites (BitVec.ofNat 7 w) with
  | true =>
    rw [busTableWord_write hw]
    simp only [toNat_append_eq_add, BitVec.toNat_ofNat, Nat.shiftRight_eq_div_pow]
    omega
  | false =>
    have hlt := hread hw
    rw [busTableWord_read hw]
    simp only [BitVec.toNat_ofNat]
    omega

/-- Settles O13: a command word is its command's encoding, and a descriptor's word that of the row it lies in. -/
theorem encodeOfDecodeIsTheWord : Obligations.EncodeOfDecodeIsTheWord := by
  intro nbits w i h
  obtain ⟨hlt, ⟨rfl, rfl⟩ | ⟨hn, hbit, hwrites, rfl⟩⟩ := decodeTableWord_inv h
  · exact ⟨wellFormed_decodeCmd _, by rw [encode_toInstr, commandTableWord_bits hlt]⟩
  · obtain ⟨i, hrow⟩ := exists_busRow (BitVec.ofNat 7 w) (BitVec.ofNat 32 (w >>> 8))
    rw [hrow.decode]
    refine ⟨hrow.wellFormed, ?_⟩
    rw [hrow.encode_eq]
    obtain rfl | rfl := hn
    · exact busTableWord_bits (hlt.trans (by decide)) hbit fun _ => hlt
    · exact busTableWord_bits hlt hbit fun hr => by simp [hr] at hwrites

/-! ### The numbered word on the ports -/

/-- The access of a numbered word runs as the instruction the word decodes to [30_encoding.md R71, R81]. -/
theorem exec_accessOfTableWord {nbits w : Nat} {i : Instr} (h : decodeTableWord nbits w = some i) (s : State) :
    exec (decodeAccess (accessOfTableWord nbits w)) s = exec i s := by
  obtain ⟨-, ⟨rfl, rfl⟩ | ⟨hn, -, -, rfl⟩⟩ := decodeTableWord_inv h
  · obtain ⟨b, hb⟩ := decodeAccess_cmdWrite 0 (BitVec.ofNat 32 w) rfl
    rw [accessOfTableWord, if_pos rfl, hb, exec_wrCmd, exec_command]
  · rw [accessOfTableWord, if_neg (by omega), decodeAccess_accessOf]

/-- Settles O6: the step runs the access of the word, which decodes as the word does. -/
theorem fetchWordRunsItsInstruction : Obligations.FetchWordRunsItsInstruction := by
  intro s nbits w i h
  exact (step_access (s := s.withFetchWord nbits w) rfl rfl rfl).trans (exec_accessOfTableWord h _)

end Sys2Proof.Machine
end

section
/-! PROOFS. The pushes of a message give its bytes back. -/

namespace Sys2Proof.Machine

/-- Settles O56, by induction on the groups of four bytes: each push gives its group back. -/
theorem hashPushesTheMessage : Obligations.HashPushesTheMessage := by
  intro message
  induction message using messagePushes.induct with
  | case1 => rfl
  | case2 a => exact congrArg (· ++ []) (packedBytesAreTheOperand [a] (by simp))
  | case3 a b => exact congrArg (· ++ []) (packedBytesAreTheOperand [a, b] (by simp))
  | case4 a b c => exact congrArg (· ++ []) (packedBytesAreTheOperand [a, b, c] (by simp))
  | case5 a b c d rest ih =>
    rw [messagePushes, List.flatMap_cons, ih]
    exact congrArg (· ++ rest) (packedBytesAreTheOperand [a, b, c, d] (by simp))

end Sys2Proof.Machine
end

section
/-! PROOFS. What NOP, INIT and an accepted UPDATE do to the block, and the write of CMD that performs them. -/

namespace Sys2Proof.Machine

/-! ### An accepted UPDATE -/

/-- UPDATE that passes the checks on phase and count appends its operand, phase ACCUMULATING [41_commands.md R94]. -/
theorem State.Inv.updateEffect_eq {s : State} {n : Fin 5} (h : s.Inv) (he : s.eng = .idle) (hp : s.phase ≠ .finalized)
    (hm : s.totalLen.toNat + n.val ≤ maxBytes) : updateEffect n s = append (operandBytes s.data n) (s.counted n) := by
  rw [updateEffect_append n s hp hm, h.afterUpdate he hp, State.counted]

/-- `buf_len` holds every length below a block exactly [10_state.md R27]. -/
theorem bufLen_ofNat {k : Nat} (h : k < 64) : (BitVec.ofNat 7 k).toNat = k := by
  rw [BitVec.toNat_ofNat]
  omega

/-- Operand bytes stored from address `a` on, the first `d` of them left out, are read back as byte lanes of DATA
[30_encoding.md R78]. -/
theorem readByte_writeRun_operand (m : Memory) (a : Nat) (data : Word) {n : Fin 5} {d i : Nat} (h : d + i < n.val) :
    Memory.readByte (m.writeRun a ((operandBytes data n).drop d)) (a + i) =
      some (data.extractLsb' (24 - 8 * (d + i)) 8) := by
  have hlen : i < ((operandBytes data n).drop d).length := by
    rw [List.length_drop, operandBytes_length]
    omega
  rw [Memory.readByte_writeRun_inside _ m a i hlen, List.getElem?_drop, operandBytes_getElem? data n (d + i) h]

/-- Settles O16: `Append` in its short case, and the bytes it stores read back. -/
theorem updateAppendsToTheBuffer : Obligations.UpdateAppendsToTheBuffer := by
  intro s n hi he hp hm hshort
  have hlen := operandBytes_length s.data n
  have heffect := (hi.updateEffect_eq he hp hm).trans
    (append_short (operandBytes s.data n) (s.counted n) (by rwa [hlen]))
  refine ⟨_, commandEdge_idle he heffect, acked_Acked none rfl, rfl, ?_, totalLen_add _ n hm, fun i h => ?_,
    fun a ha => ?_⟩
  · rw [hlen]
    exact bufLen_ofNat hshort
  · have hread := readByte_writeRun_operand s.buf s.bufLen.toNat s.data (d := 0) (i := i) (by rwa [Nat.zero_add])
    rwa [List.drop_zero, Nat.zero_add] at hread
  · exact Memory.readByte_writeRun_outside _ s.buf _ a (by rwa [hlen])

/-- Settles O17: `Append` in its block case, and the bytes left over read back from address 0. -/
theorem updateCompletesABlock : Obligations.UpdateCompletesABlock := by
  intro s n hi he hp hm hfull
  have hlen := operandBytes_length s.data n
  have hlt := hi.bufLenLt
  have hleft : (operandBytes s.data n).length - (64 - s.bufLen.toNat) = s.bufLen.toNat + n.val - 64 := by omega
  obtain ⟨front, hfront, hrun, -⟩ := bufferedBytes_ok s hlt hi.bufFilled
  have heffect := (hi.updateEffect_eq he hp hm).trans
    (append_full (operandBytes s.data n) (s.counted n) front hfront (by rwa [hlen]) (operandBytes_le _ _))
  refine ⟨_, front, hrun, commandEdge_idle he heffect, acked_Acked none rfl, rfl, ?_, totalLen_add _ n hm,
    fun i h => ?_, fun a ha => ?_⟩
  · exact (bufLen_ofNat (by omega)).trans hleft
  · have hread := readByte_writeRun_operand s.buf 0 s.data (n := n) (d := 64 - s.bufLen.toNat) (i := i) (by omega)
    rwa [Nat.zero_add] at hread
  · refine Memory.readByte_writeRun_outside _ s.buf 0 a (.inr ?_)
    rw [Nat.zero_add, List.length_drop]
    exact hleft.trans_le ha

/-! ### The write of CMD -/

/-- Settles O5: the write of CMD is the edge of its word's command, which has an effect in every state of a run. -/
theorem cmdWritePerformsTheDecodedCommand : Obligations.CmdWritePerformsTheDecodedCommand := by
  refine fun s b w => ⟨(exec_wrCmd b w s).trans (exec_command (decodeCmd w) s).symm, fun hi he => ?_⟩
  obtain ⟨u, hu, hinputs⟩ := commandEffect_ok (decodeCmd w) s hi
  refine ⟨_, (exec_wrCmd b w s).trans (commandEdge_idle he hu), acked_Acked none hinputs, fun hd => ?_⟩
  rw [hd] at hu
  cases hu
  rfl

/-! ### NOP and INIT -/

/-- Settles O14: an idle edge performs NOP, and a held one is not acked. -/
theorem nopChangesNothing : Obligations.NopChangesNothing := by
  refine ⟨fun s he => ⟨_, commandEdge_idle (c := nopEffect) he rfl, acked_Acked none rfl, rfl, fun a => rfl⟩,
    fun s t hx hack => ?_⟩
  rw [exec_nop] at hx
  rcases commandEdge_inv hx with ⟨-, u, -, rfl⟩ | ⟨he, -⟩
  · cases hack
  · exact busy_idle he

/-- STATUS of an idle FRESH block with no byte and no error is 0 [10_state.md R32]. -/
theorem status_eq_zero {s : State} (he : s.eng = .idle) (hp : s.phase = .fresh) (hl : s.bufLen = 0)
    (hill : s.errIllegal = false) (hmis : s.errMisuse = false) (hcap : s.errCapacity = false) : s.status = 0 := by
  simp [status_eq_fields, he, hp, hl, hill, hmis, hcap, Phase.code]

theorem lenLo_eq_zero {s : State} (h : s.totalLen = 0) : s.lenLo = 0 := by
  rw [State.lenLo, h]
  decide

theorem lenHi_eq_zero {s : State} (h : s.totalLen = 0) : s.lenHi = 0 := by
  rw [State.lenHi, h]
  decide

/-- Settles O15: an idle edge performs INIT, whose fields are its initial values. -/
theorem initStartsANewMessage : Obligations.InitStartsANewMessage := by
  refine ⟨fun s he => ?_, _, commandEdge_idle (c := initEffect) (s := State.reset) rfl rfl, rfl⟩
  exact ⟨_, commandEdge_idle (c := initEffect) he rfl, acked_Acked none rfl, rfl,
    status_eq_zero he rfl rfl rfl rfl rfl, lenLo_eq_zero rfl, lenHi_eq_zero rfl, fun i => rfl, fun a => rfl⟩

end Sys2Proof.Machine
end

section
/-! PROOFS. One round and one feed-forward edge under any access, the schedule and the window along a block, the 65 edges of a block, and the bit functions bit by bit. -/

namespace Sys2Proof.Machine

/-! ### The round step -/

/-- The round function on the working variables by name [42_block_compressor.md R121]. -/
theorem roundFn_eq (k w : Word) (x : Words8) :
    roundFn k w x =
      ⟨(x.w7 + bigSigma1 x.w4 + ch x.w4 x.w5 x.w6 + k + w) + (bigSigma0 x.w0 + maj x.w0 x.w1 x.w2), x.w0, x.w1, x.w2,
        x.w3 + (x.w7 + bigSigma1 x.w4 + ch x.w4 x.w5 x.w6 + k + w), x.w4, x.w5, x.w6⟩ := rfl

/-- `rnd[5:0]` addresses the ROM word of the round [42_block_compressor.md R117, R125]. -/
theorem romWords_getElem?_rnd {r : BitVec 7} (h : r.toNat < 64) :
    romWords[r.toNat]? = some (rom (r.extractLsb' 0 6)) := by
  have haddr : (r.extractLsb' 0 6).toNat = r.toNat := by
    rw [BitVec.extractLsb'_toNat, Nat.shiftRight_zero]
    exact Nat.mod_eq_of_lt h
  rw [← haddr]
  exact romWords_getElem? _

/-- Settles O24: the edge is the engine's round beside at most a write of DATA. -/
theorem roundStepComputesItsRule : Obligations.RoundStepComputesItsRule := by
  intro s he hlt hh hr
  obtain ⟨t, hs, hblock, hdata⟩ :=
    step_busy he hh hr (engineEdge_round (s := s.present s.nextIn) he hlt)
  have hrnd : s.rnd + 1 = BitVec.ofNat 7 (s.rnd.toNat + 1) := by simp [BitVec.ofNat_add]
  refine ⟨t, _, hs, romWords_getElem?_rnd hlt, ?_, hdata⟩
  rw [hblock, ← hrnd, ← roundFn_eq]
  rfl

/-! ### The feed-forward step -/

/-- Every compression completes while the byte count is one the spec allows, and completion leaves H
[43_streaming_driver.md R144, R150]. -/
theorem complete_ok {s : State} (h : s.totalLen.toNat ≤ maxBytes) : ∃ t, complete s = .ok t ∧ t.h = s.h := by
  cases hp : s.pad with
  | pNone => exact ⟨_, complete_pNone hp, rfl⟩
  | pFirst => exact ⟨_, complete_pFirst hp (lengthField_ok _ h), rfl⟩
  | pFinal => exact ⟨_, complete_pFinal hp, rfl⟩

/-- A load while the engine runs leaves it running [42_block_compressor.md R124]. -/
theorem load_of_compress {b : List Byte} {p : PadState} {hcur : Words8} {s : State} (h : s.eng = .compress) :
    load b p hcur s = { s with win := parseBlock b, v := hcur, rnd := 0, pad := p } := by
  rw [load, ← h]

/-- Settles O25: the edge is `Complete` on the new H, beside at most a write of DATA, by the three values of `pad`. -/
theorem feedForwardCompletesByPad : Obligations.FeedForwardCompletesByPad := by
  intro s he hrnd htotal hh hr
  have hedge := engineEdge_feedForward (s := s.present s.nextIn) he hrnd
  obtain ⟨u, hu, -⟩ := complete_ok (s := { s.present s.nextIn with h := addWords s.h s.v }) htotal
  obtain ⟨t, hs, hblock, hdata⟩ := step_busy he hh hr (hedge.trans hu)
  refine ⟨t, addWords s.h s.v, hs, rfl, fun hp => ?_, fun hp => ?_, fun hp => ?_, fun hw => ?_⟩
  · cases hu.symm.trans (complete_pNone hp)
    have hstop : t.rnd = 0 := congrArg State.rnd hblock
    rw [hstop]
    exact hblock
  · cases hu.symm.trans (complete_pFirst hp (lengthField_ok _ htotal))
    exact hblock.trans (by rw [load_of_compress (by exact he)]; rfl)
  · cases hu.symm.trans (complete_pFinal hp)
    have hstop : t.rnd = 0 := congrArg State.rnd hblock
    have hphase : t.phase = .finalized := congrArg State.phase hblock
    have hhash : t.h = addWords s.h s.v := congrArg State.h hblock
    rw [hstop]
    exact ⟨hblock, fun i => by rw [State.digestWord, if_pos hphase, hhash]⟩
  · obtain ⟨-, -, hkept, -⟩ := engineEdge_frame (hedge.trans hu)
    exact (hdata hw).trans hkept

/-! ### The message schedule -/

/-- Settles O27: the words of the block, the recurrence from the sixteenth word on, and the 64-word list by position. -/
theorem scheduleFollowsItsRecurrence : Obligations.ScheduleFollowsItsRecurrence := by
  refine fun b => ⟨fun t ht => scheduleWord_first b ht, fun i hi => ?_, List.ext_getElem? fun t => ?_⟩
  · obtain ⟨k, rfl⟩ := Nat.exists_eq_add_of_le' hi
    exact scheduleWord_recurrence b k
  · by_cases ht : t < 64
    · rw [schedule_getElem? b ht, List.getElem?_map, List.getElem?_range ht]
      rfl
    · rw [List.getElem?_eq_none (by rw [schedule_length]; omega), List.getElem?_eq_none (by simp; omega)]

/-! ### The window along a block -/

/-- With nothing on the ports, steps end in the block state of as many edges of the engine. -/
theorem steps_block {s t : State} {n : Nat} (hi : s.inputs = []) (hr : s.request = none)
    (h : engineEdges n s = .ok t) : ∃ u, steps n s = .next u ∧ u.block = t.block := by
  cases n with
  | zero => cases h; exact ⟨s, rfl, rfl⟩
  | succ n => exact ⟨_, steps_alone hi hr h, rfl⟩

/-- `k` rounds move the window `k` words along the schedule, whatever the working variables hold
[42_block_compressor.md R127]. -/
theorem engineEdges_window {s : State} {b : List Byte} (he : s.eng = .compress) (hr : s.rnd = 0)
    (hw : s.win = parseBlock b) {k : Nat} (hk : k ≤ 64) :
    ∃ t, engineEdges k s = .ok t ∧ t.eng = .compress ∧ t.rnd.toNat = k ∧ t.win = scheduleWindow b k := by
  induction k with
  | zero => exact ⟨s, rfl, he, by rw [hr]; rfl, hw.trans (parseBlock_eq_scheduleWindow b)⟩
  | succ k ih =>
    obtain ⟨t, hrun, hte, htr, htw⟩ := ih (by omega)
    have hround : engineEdges (k + 1) s = .ok (roundStep t) := by
      rw [engineEdges_add 1 hrun, engineEdges_one, engineEdge_round hte (by omega)]
    refine ⟨roundStep t, hround, hte, ?_, ?_⟩
    · rw [roundStep_rnd, BitVec.toNat_add, htr]
      exact Nat.mod_eq_of_lt (show k + 1 < 128 by omega)
    · rw [roundStep_win, htw, shiftWindow_scheduleWindow]

theorem scheduleWindow_getElem? (b : List Byte) (k : Nat) {j : Nat} (h : j < 16) :
    (scheduleWindow b k).toList[j]? = some (scheduleWord b (k + j)) := by
  have hlist : (scheduleWindow b k).toList = (List.range 16).map (fun i => scheduleWord b (k + i)) := rfl
  rw [hlist, List.getElem?_map, List.getElem?_range h]
  rfl

/-- Settles O28: the engine's rounds move the window along the schedule, and with nothing on the ports they are the
machine's steps. -/
theorem windowHoldsTheSchedule : Obligations.WindowHoldsTheSchedule := by
  intro s b k he hr hw hi hq hk
  obtain ⟨t, hrun, hte, htr, htw⟩ := engineEdges_window he hr hw hk
  obtain ⟨u, hsteps, hblock⟩ := steps_block hi hq hrun
  obtain ⟨-, -, hwin, heng, hrnd, -⟩ := State.ext_block hblock
  refine ⟨u, hsteps, by rw [hrnd, htr], heng.trans hte, fun j hj => ?_⟩
  rw [hwin, htw, scheduleWindow_getElem? b k hj]

/-! ### The 65 edges of a block -/

/-- The 65 edges of a loaded block go on and leave the pure function's value in H [42_block_compressor.md R130]. -/
theorem engineEdges_compress {s : State} {b : List Byte} (hs : s.Loaded b) (ht : s.totalLen.toNat ≤ maxBytes) :
    ∃ u, engineEdges 65 s = .ok u ∧ u.h = compress s.h b := by
  obtain ⟨hn, v, win, hh, hrun⟩ := engineEdges_loaded hs
  obtain ⟨u, hu, huh⟩ := complete_ok (s := s.fedForward hn v win) ht
  exact ⟨u, hrun.trans hu, huh.trans hh⟩

/-- Settles O29: 64 rounds with BUSY and the H loaded, then the feed-forward to the pure function's value. -/
theorem datapathComputesCompress : Obligations.DatapathComputesCompress := by
  intro s b he hr hw hv ht hi hq
  have hs : s.Loaded b := ⟨he, hr, hw, hv⟩
  refine ⟨?_, fun k hk => ?_⟩
  · obtain ⟨t, hrun, hth⟩ := engineEdges_compress hs ht
    obtain ⟨u, hsteps, hblock⟩ := steps_block hi hq hrun
    obtain ⟨hh, -⟩ := State.ext_block hblock
    exact ⟨u, hsteps, hh.trans hth⟩
  · obtain ⟨u, hsteps, hblock⟩ := steps_block hi hq (engineEdges_rounds hs (Nat.le_of_lt_succ hk))
    obtain ⟨hh, -, -, heng, -⟩ := State.ext_block hblock
    exact ⟨u, hsteps, busy_compress (heng.trans he), hh⟩

/-! ### The bit functions -/

/-- Bit `i` of the rotation is bit `i + n` of the word, counted round [42_block_compressor.md R110]. -/
theorem getLsbD_rotr (x : Word) {n i : Nat} (h1 : 1 ≤ n) (hn : n ≤ 31) (hi : i < 32) :
    (rotr x n).getLsbD i = x.getLsbD ((i + n) % 32) := by
  rw [rotr, BitVec.getLsbD_or, BitVec.getLsbD_ushiftRight, BitVec.getLsbD_shiftLeft]
  by_cases hwrap : i + n < 32
  · have hlow : i < 32 - n := by omega
    simp [hlow, Nat.mod_eq_of_lt hwrap, Nat.add_comm n i]
  · have hhigh : ¬ i < 32 - n := by omega
    have hout : x.getLsbD (n + i) = false := BitVec.getLsbD_of_ge _ _ (by omega)
    have hbit : (i + n) % 32 = i - (32 - n) := by omega
    simp [hi, hhigh, hout, hbit]

/-- `x` chooses between `y` and `z` bit by bit [42_block_compressor.md R115]. -/
theorem getLsbD_ch (x y z : Word) {i : Nat} (hi : i < 32) :
    (ch x y z).getLsbD i = (if x.getLsbD i then y.getLsbD i else z.getLsbD i) := by
  rw [ch, BitVec.getLsbD_xor, BitVec.getLsbD_and, BitVec.getLsbD_and, BitVec.getLsbD_not]
  cases x.getLsbD i <;> simp [hi]

/-- The majority of three bits [42_block_compressor.md R116]. -/
theorem getLsbD_maj (x y z : Word) (i : Nat) :
    (maj x y z).getLsbD i = ((x.getLsbD i && y.getLsbD i) || (x.getLsbD i && z.getLsbD i) ||
      (y.getLsbD i && z.getLsbD i)) := by
  rw [maj, BitVec.getLsbD_xor, BitVec.getLsbD_xor, BitVec.getLsbD_and, BitVec.getLsbD_and, BitVec.getLsbD_and]
  cases x.getLsbD i <;> cases y.getLsbD i <;> cases z.getLsbD i <;> rfl

/-- Settles O54: the rotation, the choice and the majority, each bit by bit. -/
theorem bitFunctionsAreBitwise : Obligations.BitFunctionsAreBitwise :=
  ⟨fun x _ _ h1 hn hi => getLsbD_rotr x h1 hn hi, fun _ _ _ => ⟨rfl, rfl⟩,
    fun x y z i hi => ⟨getLsbD_ch x y z hi, getLsbD_maj x y z i⟩⟩

end Sys2Proof.Machine
end

section
/-! PROOFS. The streaming driver: every step of a run goes on, FINAL's padding block, the phase table, and the bytes at or above `buf_len`, which no instruction's effect depends on. -/

namespace Sys2Proof.Machine

/-! ### No step of a run faults -/

/-- From the invariant every instruction goes on: the engine has its step, and every command its effect
[60_exceptions.md R185]. -/
theorem exec_goesOn (i : Instr) {s : State} (h : s.Inv) : goesOn (exec i s) := by
  obtain ⟨u, hu⟩ := engineEdge_ok (inv_engineOk h)
  cases hc : Instr.command? i with
  | some c =>
    rw [exec_of_command? s hc]
    rcases engine_cases s with he | he
    · obtain ⟨v, hv, -⟩ := commandEffect_ok c s h
      exact ⟨_, commandEdge_idle he hv⟩
    · rw [commandEdge_busy _ he]
      exact ⟨_, idleEdge_ok hu⟩
  | none =>
    rcases exec_of_no_command? s hc with ⟨value, hx⟩ | ⟨w, hx⟩
    · exact hx ▸ ⟨_, accessEdge_ok value id hu⟩
    · exact hx ▸ ⟨_, accessEdge_ok none (setData w) hu⟩

/-- Settles O43: reset always goes on, the access presented and the engine alone go on from the invariant. -/
theorem runsNeverFault : Obligations.RunsNeverFault := by
  intro s hi hh
  have hp := inv_present s.nextIn hi
  cases hr : s.nextIn.rst with
  | true => exact ⟨_, step_reset hh hr⟩
  | false =>
    cases hq : s.nextIn.req with
    | some a =>
      rw [step_access hh hr hq]
      exact exec_goesOn (decodeAccess a) hp
    | none =>
      obtain ⟨u, hu⟩ := engineEdge_ok (inv_engineOk hp)
      exact ⟨_, (step_noAccess hh hr hq).trans (idleEdge_ok hu)⟩

/-! ### The phase and `buf_len` over the engine's step -/

/-- The engine finalizes at the feed-forward of the last padding block, and leaves the phase and `buf_len` at every other
edge [43_streaming_driver.md R144, R146]. -/
theorem engineEdge_phase {s t : State} (h : engineEdge s = .ok t) :
    (¬(s.eng = .compress ∧ s.rnd = 64 ∧ s.pad = .pFinal) ∧ t.phase = s.phase ∧ t.bufLen = s.bufLen) ∨
    ((s.eng = .compress ∧ s.rnd = 64 ∧ s.pad = .pFinal) ∧ t.phase = .finalized ∧ t.bufLen = 0) := by
  rcases engineEdge_inv h with ⟨he, rfl⟩ | ⟨-, hr, rfl⟩ | ⟨he, hr, hc⟩
  · exact .inl ⟨by simp [he], rfl, rfl⟩
  · refine .inl ⟨fun ⟨_, h64, _⟩ => ?_, rfl, rfl⟩
    simp [h64] at hr
  · rcases complete_inv hc with ⟨hp, rfl⟩ | ⟨hp, lb, -, rfl⟩ | ⟨hp, rfl⟩
    · exact .inl ⟨fun ⟨_, _, hf⟩ => (by cases hp.symm.trans hf), rfl, rfl⟩
    · exact .inl ⟨fun ⟨_, _, hf⟩ => (by cases hp.symm.trans hf), rfl, rfl⟩
    · exact .inr ⟨⟨he, hr, hp⟩, rfl, rfl⟩

/-! ### FINAL -/

/-- A step from FINALIZING to FINALIZING is the engine's, and leaves `buf_len` [43_streaming_driver.md R143, R144]. -/
theorem step_finalizing_bufLen {s t : State} (hi : s.Inv) (hs : step s = .next t) (hsp : s.phase = .finalizing)
    (htp : t.phase = .finalizing) : t.bufLen = s.bufLen := by
  cases step_effect hs with
  | reset rst next => rw [next] at htp; cases htp
  | command rst c performed u effect next =>
    obtain ⟨-, he, -⟩ := (performed c).2 rfl
    exact absurd hsp (hi.idlePhase he)
  | engine rst unperformed u edge next =>
    have hphase : t.phase = u.phase := (congrArg State.phase next :)
    have hlen : t.bufLen = u.bufLen := (congrArg State.bufLen next :)
    rcases engineEdge_phase edge with ⟨-, -, hkept⟩ | ⟨-, hfin, -⟩
    · exact hlen.trans hkept
    · cases htp.symm.trans (hphase.trans hfin)

/-- Settles O18: `buf_len` over a step inside FINALIZING, then `StartPadding` with PadA in its two cases. -/
theorem finalStartsPadding : Obligations.FinalStartsPadding := by
  refine ⟨fun s t hi hs hsp htp => ?_, fun s hi he hp => ?_⟩
  · have hlen := step_finalizing_bufLen hi hs hsp htp
    exact ⟨hlen, (status_bufLen t).trans hlen⟩
  · obtain ⟨front, hfront, hrun, hfl⟩ := bufferedBytes_ok s hi.bufLenLt hi.bufFilled
    have heffect := (finalEffect_padding s hp).trans
      (startPadding_ok { s with phase := .finalizing } front _ hfront (lengthField_ok _ hi.totalLe))
    refine ⟨_, front, hrun, commandEdge_idle he heffect, acked_Acked none rfl, fun hm => ?_, fun hm => ?_, fun a => rfl⟩
    · rw [padA_short front _ (by omega), hfl, if_pos hm]
      rfl
    · rw [padA_long front _ (by omega), hfl, if_neg (by simp; omega)]
      rfl

/-! ### The phase table -/

/-- The phase after a command: the rows of the table for INIT, UPDATE and FINAL [43_streaming_driver.md R146]. -/
def Phase.afterCommand : Command → Phase → Phase
  | .init, _ => .fresh
  | .update _, p => p.afterUpdate
  | .final, .finalized => .finalized
  | .final, _ => .finalizing
  | .nop, p | .illegal _, p => p

theorem append_phase {bytes : List Byte} {s t : State} (hb : bytes.length ≤ 4) (h : append bytes s = .ok t) :
    t.phase = s.phase := by
  rcases append_inv hb h with ⟨-, rfl⟩ | ⟨-, front, -, rfl⟩ <;> rfl

/-- Every command moves the phase by the table. An UPDATE past the capacity leaves it, and is never one of phase FRESH,
where no byte is counted [41_commands.md R96]. -/
theorem commandEffect_phase {c : Command} {s t : State} (hi : s.Inv) (h : commandEffect c s = .ok t) :
    t.phase = Phase.afterCommand c s.phase := by
  cases c with
  | nop | init | illegal w => cases h; rfl
  | update n =>
    rcases updateEffect_inv h with ⟨hp, rfl⟩ | ⟨-, hm, rfl⟩ | ⟨-, -, ha⟩
    · rw [hp]
      exact hp
    · cases hp : s.phase with
      | fresh =>
        have hnone : s.totalLen.toNat = 0 := congrArg BitVec.toNat (hi.freshLen hp)
        rw [hnone, maxBytes] at hm
        omega
      | accumulating | finalized | finalizing => exact hp
    · exact append_phase (operandBytes_le _ _) ha
  | final =>
    rcases finalEffect_inv h with ⟨hp, rfl⟩ | ⟨hp, hpad⟩
    · rw [hp]
      exact hp
    · obtain ⟨front, lb, -, -, rfl⟩ := startPadding_inv hpad
      cases hs : s.phase with
      | finalized => exact absurd hs hp
      | fresh | accumulating | finalizing => rfl

/-- The rows at which a command changes the phase of an idle block [43_streaming_driver.md R146]. -/
theorem afterCommand_ne {c : Command} {p : Phase} (hp : p ≠ .finalizing) (h : Phase.afterCommand c p ≠ p) :
    c = .init ∨ ((∃ n, c = .update n) ∧ p = .fresh) ∨ (c = .final ∧ (p = .fresh ∨ p = .accumulating)) := by
  cases c with
  | nop | illegal w => exact absurd rfl h
  | init => exact .inl rfl
  | update n =>
    cases p with
    | fresh => exact .inr (.inl ⟨⟨n, rfl⟩, rfl⟩)
    | accumulating | finalized | finalizing => exact absurd rfl h
  | final =>
    cases p with
    | fresh => exact .inr (.inr ⟨rfl, .inl rfl⟩)
    | accumulating => exact .inr (.inr ⟨rfl, .inr rfl⟩)
    | finalized => exact absurd rfl h
    | finalizing => exact absurd rfl hp

/-- An edge with `rst = 1` performs no command [70_reset_and_hazards.md R200]. -/
theorem not_performs_reset {s : State} (rst : s.nextIn.rst = true) (c : Command) : ¬ s.performs c := by
  rintro ⟨hr, -⟩
  rw [rst] at hr
  cases hr

/-- Settles O45: a command moves the phase by the table, and the engine only where it finalizes. -/
theorem phaseTransitionsAreTheTable : Obligations.PhaseTransitionsAreTheTable := by
  intro s t hi hs
  cases step_effect hs with
  | reset rst next =>
    subst next
    exact ⟨fun _ => rfl, fun n h => absurd h (not_performs_reset rst _), fun h => absurd h (not_performs_reset rst _),
      fun hr => absurd (rst.symm.trans hr) (by simp), fun _ => .inl rst⟩
  | command rst c performed u effect next =>
    subst next
    obtain ⟨-, he, -⟩ := (performed c).2 rfl
    have hphase : (acked none u).phase = Phase.afterCommand c s.phase :=
      commandEffect_phase (s := s.present s.nextIn) (t := u) (inv_present s.nextIn hi) effect
    simp only [performed, rst, hphase, he, Bool.false_eq_true, false_or, reduceCtorEq, false_and, or_false]
    refine ⟨?_, ?_, ?_, ?_, afterCommand_ne (hi.idlePhase he)⟩
    · rintro rfl
      rfl
    · rintro n rfl hp
      rw [hp]
      rfl
    · rintro rfl (hp | hp) <;> rw [hp] <;> rfl
    · simp
  | engine rst unperformed u edge next =>
    have hphase : t.phase = u.phase := (congrArg State.phase next :)
    simp only [unperformed, rst, hphase, Bool.false_eq_true, false_or, false_and, exists_false]
    refine ⟨False.elim, fun _ => False.elim, False.elim, fun _ he hr hp => ?_, fun hne => ?_⟩
    · rcases engineEdge_phase edge with ⟨hnot, -⟩ | ⟨-, hfin, -⟩
      · exact absurd ⟨he, hr, hp⟩ hnot
      · exact ⟨hi.padPhase he (by simp [hp]), hfin⟩
    · rcases engineEdge_phase edge with ⟨-, hkept, -⟩ | ⟨hcase, -⟩
      · exact absurd hkept hne
      · exact hcase

/-! ### Bytes at or above `buf_len` -/

/-- Two contents of the buffer that agree below an address. -/
def Memory.AgreeBelow (n : Nat) (m m' : Memory) : Prop := ∀ k < n, m.readByte k = m'.readByte k

theorem Memory.AgreeBelow.zero (m m' : Memory) : Memory.AgreeBelow 0 m m' := fun k hk => absurd hk (Nat.not_lt_zero k)

/-- The same bytes stored where two contents stop agreeing extend their agreement. -/
theorem Memory.AgreeBelow.writeRun {a : Nat} {m m' : Memory} (bs : List Byte) (h : Memory.AgreeBelow a m m') :
    Memory.AgreeBelow (a + bs.length) (m.writeRun a bs) (m'.writeRun a bs) := by
  intro k hk
  by_cases hin : k < a
  · rw [Memory.readByte_writeRun_outside bs m a k (.inl hin), Memory.readByte_writeRun_outside bs m' a k (.inl hin)]
    exact h k hin
  · obtain ⟨i, rfl⟩ := Nat.exists_eq_add_of_le (Nat.le_of_not_lt hin)
    rw [Memory.readByte_writeRun_inside bs m a i (by omega), Memory.readByte_writeRun_inside bs m' a i (by omega)]

/-- The buffered bytes are those below `buf_len` [10_state.md R26, R27]. -/
theorem bufferedBytes_congr {s : State} {m : Memory} (h : Memory.AgreeBelow s.bufLen.toNat m s.buf) :
    bufferedBytes { s with buf := m } = bufferedBytes s := by
  have hrun := Memory.readRun_congr m s.buf s.bufLen.toNat 0 (fun k hk => by simpa using h k hk)
  simp only [bufferedBytes, memRead, hrun]

/-- `Append` reads and keeps the agreement below `buf_len` [43_streaming_driver.md R140]. -/
theorem append_agrees {bytes : List Byte} {s t : State} {m : Memory} (hb : bytes.length ≤ 4)
    (hm : Memory.AgreeBelow s.bufLen.toNat m s.buf) (h : append bytes s = .ok t) :
    ∃ m', append bytes { s with buf := m } = .ok { t with buf := m' } ∧
      Memory.AgreeBelow t.bufLen.toNat m' t.buf := by
  rcases append_inv hb h with ⟨hshort, rfl⟩ | ⟨hfull, front, hfront, rfl⟩
  · refine ⟨_, append_short bytes { s with buf := m } hshort, ?_⟩
    exact (bufLen_ofNat hshort).symm ▸ hm.writeRun bytes
  · have hleft := bufLen_ofNat (k := bytes.length - (64 - s.bufLen.toNat)) (by omega)
    refine ⟨_, append_full bytes { s with buf := m } front ((bufferedBytes_congr hm).trans hfront) hfull hb, ?_⟩
    have hagree := (Memory.AgreeBelow.zero m s.buf).writeRun (bytes.drop (64 - s.bufLen.toNat))
    rw [Nat.zero_add, List.length_drop, ← hleft] at hagree
    exact hagree

/-- Every command's effect from contents that agree below `buf_len` is the same but for contents that agree again. -/
theorem commandEffect_agrees {c : Command} {s t : State} {m : Memory}
    (hm : Memory.AgreeBelow s.bufLen.toNat m s.buf) (h : commandEffect c s = .ok t) :
    ∃ m', commandEffect c { s with buf := m } = .ok { t with buf := m' } ∧
      Memory.AgreeBelow t.bufLen.toNat m' t.buf := by
  cases c with
  | nop | illegal w => cases h; exact ⟨m, rfl, hm⟩
  | init => cases h; exact ⟨m, rfl, Memory.AgreeBelow.zero m s.buf⟩
  | update n =>
    rcases updateEffect_inv h with ⟨hp, rfl⟩ | ⟨hp, hcap, rfl⟩ | ⟨hp, hcap, ha⟩
    · exact ⟨m, updateEffect_misuse n { s with buf := m } hp, hm⟩
    · exact ⟨m, updateEffect_capacity n { s with buf := m } hp hcap, hm⟩
    · obtain ⟨m', ha', hm'⟩ := append_agrees (m := m) (operandBytes_le _ _) (by exact hm) ha
      exact ⟨m', (updateEffect_append n { s with buf := m } hp hcap).trans ha', hm'⟩
  | final =>
    rcases finalEffect_inv h with ⟨hp, rfl⟩ | ⟨hp, hpad⟩
    · exact ⟨m, finalEffect_misuse { s with buf := m } hp, hm⟩
    · obtain ⟨front, lb, hfront, hl, rfl⟩ := startPadding_inv hpad
      have hstart := startPadding_ok { s with phase := .finalizing, buf := m } front lb
        ((bufferedBytes_congr (s := { s with phase := .finalizing }) hm).trans hfront) hl
      exact ⟨m, (finalEffect_padding { s with buf := m } hp).trans hstart, hm⟩

/-- The engine's step does not read the buffer. -/
theorem engineEdge_withBuf {s t : State} (m : Memory) (h : engineEdge s = .ok t) :
    engineEdge { s with buf := m } = .ok { t with buf := m } := by
  rcases engineEdge_inv h with ⟨he, rfl⟩ | ⟨he, hr, rfl⟩ | ⟨he, hr, hc⟩
  · exact engineEdge_idle he
  · exact engineEdge_round he hr
  · rw [engineEdge_feedForward (s := { s with buf := m }) he hr]
    rcases complete_inv hc with ⟨hp, rfl⟩ | ⟨hp, lb, hl, rfl⟩ | ⟨hp, rfl⟩
    · exact complete_pNone hp
    · exact complete_pFirst hp hl
    · exact complete_pFinal hp

/-- The engine's step keeps an agreement below `buf_len`, which it leaves or clears. -/
theorem engineEdge_agrees {s t : State} {m : Memory} (hm : Memory.AgreeBelow s.bufLen.toNat m s.buf)
    (h : engineEdge s = .ok t) : Memory.AgreeBelow t.bufLen.toNat m t.buf := by
  obtain ⟨hbuf, -⟩ := engineEdge_frame h
  rcases engineEdge_phase h with ⟨-, -, hlen⟩ | ⟨-, -, hlen⟩
  · rw [hbuf, hlen]
    exact hm
  · rw [hlen]
    exact Memory.AgreeBelow.zero m t.buf

/-- No register shows the buffer [44_register_access.md R161]. -/
theorem readEdge_withBuf (a : BitVec 4) (s : State) (m : Memory) :
    readEdge a { s with buf := m } = accessEdge (some (s.regValue a)) id { s with buf := m } := rfl

/-- An access that carries no command is the same edge whatever the buffer holds: it returns one value and writes at most
DATA. -/
theorem exec_withBuf_of_no_command? {i : Instr} (s : State) (h : Instr.command? i = none) :
    ∃ value f, (f = id ∨ ∃ w, f = setData w) ∧
      ∀ m, exec i { s with buf := m } = accessEdge value f { s with buf := m } := by
  cases i with
  | wrData b w => exact ⟨none, setData w, .inr ⟨w, rfl⟩, fun m => rfl⟩
  | nop | init | update n | final | illegal w | wrCmd b w => cases h
  | wrIgnoredStatus x b w | wrIgnoredLen x b w | wrIgnoredDigest x b w => exact ⟨none, id, .inl rfl, fun m => rfl⟩
  | _ => exact ⟨_, id, .inl rfl, readEdge_withBuf _ s⟩

/-- Settles O50: a command reads and keeps the bytes below `buf_len` alone, and every other edge none. -/
theorem staleBytesNeverMatter : Obligations.StaleBytesNeverMatter := by
  intro s t m i hm hx
  have hengine : ∀ u, engineEdge s = .ok u → Memory.AgreeBelow u.bufLen.toNat m u.buf := fun u => engineEdge_agrees hm
  cases hc : Instr.command? i with
  | some c =>
    rw [exec_of_command? _ hc] at hx ⊢
    rcases commandEdge_inv hx with ⟨he, u, hu, rfl⟩ | ⟨he, u, hu, rfl⟩
    · rw [commandEdge_busy _ (by exact he)]
      exact ⟨m, idleEdge_ok (engineEdge_withBuf m hu), hengine u hu⟩
    · obtain ⟨m', hu', hm'⟩ := commandEffect_agrees hm hu
      exact ⟨m', commandEdge_idle (by exact he) hu', hm'⟩
  | none =>
    obtain ⟨value, f, hf, hexec⟩ := exec_withBuf_of_no_command? s hc
    obtain ⟨u, hu, rfl⟩ := accessEdge_inv ((hexec s.buf).symm.trans hx)
    have hedge := (hexec m).trans (accessEdge_ok value f (engineEdge_withBuf m hu))
    rcases hf with rfl | ⟨w, rfl⟩ <;> exact ⟨m, hedge, hengine u hu⟩

end Sys2Proof.Machine
end

section
/-! PROOFS. The register accesses at one edge: what a read returns by its register index, the writes that are ignored, the write of DATA beside the engine's step, and the digest output. -/

namespace Sys2Proof.Machine

/-! ### Reads -/

/-- A read goes on wherever the engine can step: it returns the register's value from before the edge, and the edge is
otherwise the engine's [44_register_access.md R161, R170]. -/
theorem readEdge_ok (a : BitVec 4) {s : State} (h : s.EngineOk) :
    ∃ t, readEdge a s = .next t ∧ t.Acked s (some (s.regValue a)) ∧ t.OnlyEngine s := by
  obtain ⟨u, hu⟩ := engineEdge_ok h
  exact ⟨_, accessEdge_ok _ id hu, accessEdge_onlyEngine _ hu⟩

/-- Settles O33: each of these reads is the read of a register index whose value is 0. -/
theorem readsOfCmdAndReservedReturnZero : Obligations.ReadsOfCmdAndReservedReturnZero := by
  intro s b h
  refine ⟨readEdge_ok 0 h, readEdge_ok 3 h, fun x => ?_⟩
  obtain rfl | rfl : x = 0 ∨ x = 1 := by decide +revert
  exacts [readEdge_ok 6 h, readEdge_ok 7 h]

/-- LEN_LO by arithmetic [10_state.md R33]. -/
theorem lenLo_eq_mod (s : State) : s.lenLo = BitVec.ofNat 32 (s.totalLen.toNat % 2 ^ 32) := by
  refine BitVec.eq_of_toNat_eq ?_
  rw [State.lenLo, BitVec.extractLsb'_toNat, BitVec.toNat_ofNat, Nat.mod_mod, Nat.shiftRight_zero]

/-- LEN_HI by arithmetic [10_state.md R33]. -/
theorem lenHi_eq_div (s : State) : s.lenHi = BitVec.ofNat 32 (s.totalLen.toNat / 2 ^ 32) := by
  refine BitVec.eq_of_toNat_eq ?_
  rw [State.lenHi, BitVec.extractLsb'_toNat, BitVec.toNat_ofNat, Nat.shiftRight_eq_div_pow]

/-- Settles O35: the three register indices, the halves of the byte count by arithmetic. -/
theorem readsOfStatusAndLength : Obligations.ReadsOfStatusAndLength := by
  intro s b h
  rw [← lenLo_eq_mod, ← lenHi_eq_div]
  exact ⟨readEdge_ok 2 h, readEdge_ok 4 h, readEdge_ok 5 h⟩

theorem digestWord_finalized {s : State} (h : s.phase = .finalized) (i : BitVec 3) : s.digestWord i = s.h.get i :=
  if_pos h

theorem digestWord_notFinalized {s : State} (h : s.phase ≠ .finalized) (i : BitVec 3) : s.digestWord i = 0 := if_neg h

/-- Settles O36: the register index of `DIGESTi` returns `DIGEST(i)`, which is by the phase. -/
theorem readsOfDigest : Obligations.ReadsOfDigest := by
  intro s i b h
  obtain ⟨t, ht, hacked, honly⟩ := readEdge_ok (1#1 ++ i) h
  rw [regValue_digest] at hacked
  exact ⟨t, ht, honly, fun hp => digestWord_finalized hp i ▸ hacked, fun hp => digestWord_notFinalized hp i ▸ hacked⟩

/-! ### Reads by address -/

/-- The register index of a read's descriptor is `addr[5:2]` [30_encoding.md R70]. -/
theorem accReg_read (addr : BitVec 6) : accReg (HostAccess.read addr).descriptor = addr.extractLsb' 2 4 := by
  revert addr
  decide

/-- A row of a read is the read of its register index [30_encoding.md R81]. -/
theorem BusRow.exec_eq_readEdge {acc : BitVec 7} {w : Word} {i : Instr} (h : BusRow acc w i)
    (hr : accWrites acc = false) (s : State) : exec i s = readEdge (accReg acc) s := by
  cases h with
  | wrCmd b | wrData b | wrIgnoredStatus x b | wrIgnoredLen x b | wrIgnoredDigest x b =>
    rw [accWrites_descriptorOf] at hr
    cases hr
  | rdCmd b | rdData b | rdStatus b | rdReserved b | rdLenLo b | rdLenHi b | rdReservedHigh x b | rdDigest k b =>
    rw [accReg_descriptorOf]
    rfl

/-- A read at any offset is the read of the register it lies in [44_register_access.md R161]. -/
theorem exec_read (addr : BitVec 6) (s : State) :
    exec (decodeAccess (.read addr)) s = readEdge (addr.extractLsb' 2 4) s := by
  obtain ⟨i, hrow⟩ := exists_busRow (HostAccess.read addr).descriptor (HostAccess.read addr).wdata
  rw [decodeAccess, hrow.decode, hrow.exec_eq_readEdge (accWrites_read addr), accReg_read]

/-- The register index of an offset is `addr / 4` [20_memory.md R52]. -/
theorem registerIndex_eq {addr : BitVec 6} {k : Nat} (h : addr.toNat / 4 = k) :
    addr.extractLsb' 2 4 = BitVec.ofNat 4 k := by
  refine BitVec.eq_of_toNat_eq ?_
  rw [BitVec.extractLsb'_toNat, BitVec.toNat_ofNat, Nat.shiftRight_eq_div_pow]
  exact congrArg (· % 16) h

/-- The register index of `DIGESTi` as a number [10_state.md R36]. -/
theorem digestIndex_eq {i : Nat} (h : i < 8) : BitVec.ofNat 4 (8 + i) = 1#1 ++ BitVec.ofNat 3 i := by
  revert i
  decide

/-- Settles O38: the read at an offset is the read of its register index, whose value is the row of `RegValue`. -/
theorem readDataByAddress : Obligations.ReadDataByAddress := by
  intro s addr h
  obtain ⟨t, ht, ⟨-, hvalue, -, -⟩, honly⟩ := readEdge_ok (addr.extractLsb' 2 4) h
  have hindex : ∀ {k}, addr.toNat / 4 = k → t.rdata = some (s.regValue (BitVec.ofNat 4 k)) := fun hk =>
    registerIndex_eq hk ▸ hvalue
  refine ⟨t, (exec_read addr s).trans ht, honly, fun hk => hindex hk, fun hk => hindex hk, fun hk => hindex hk,
    fun hk => hindex hk, fun hk => hindex hk, ?_, fun i hi hk => ?_⟩
  · rintro (hk | hk | hk) <;> exact hindex hk
  · rw [hindex hk, digestIndex_eq hi, regValue_digest]

/-! ### Ignored writes -/

/-- Settles O37: an ignored write is the engine's step with an ack. -/
theorem ignoredWritesChangeNothing : Obligations.IgnoredWritesChangeNothing := by
  intro s b w h
  obtain ⟨u, hu⟩ := engineEdge_ok h
  have hedge : ∃ t, ignoredEdge s = .next t ∧ t.Acked s none ∧ t.OnlyEngine s :=
    ⟨_, accessEdge_ok none id hu, accessEdge_onlyEngine none hu⟩
  exact ⟨fun _ => hedge, fun _ => hedge, fun _ => hedge⟩

/-! ### DATA and the engine -/

/-- The engine's step leaves the later inputs and what is presented [42_block_compressor.md R125, R126]. -/
theorem engineEdge_ports {s t : State} (h : engineEdge s = .ok t) : t.inputs = s.inputs ∧ t.request = s.request := by
  obtain ⟨-, -, -, -, -, -, hinputs, hrequest, -⟩ := engineEdge_frame h
  exact ⟨hinputs, hrequest⟩

/-- The engine's step neither reads nor writes DATA [44_register_access.md R162]. -/
theorem engineEdge_setData {s t : State} (w : Word) (h : engineEdge s = .ok t) :
    engineEdge (setData w s) = .ok (setData w t) := by
  rcases engineEdge_inv h with ⟨he, rfl⟩ | ⟨he, hr, rfl⟩ | ⟨he, hr, hc⟩
  · exact engineEdge_idle he
  · exact engineEdge_round he hr
  · rw [engineEdge_feedForward (s := setData w s) he hr]
    rcases complete_inv hc with ⟨hp, rfl⟩ | ⟨hp, lb, hl, rfl⟩ | ⟨hp, rfl⟩
    · exact complete_pNone hp
    · exact complete_pFirst hp hl
    · exact complete_pFinal hp

/-- The engine's step leaves the engine in a situation the spec gives it a step for. -/
theorem engineOk_engineEdge {s t : State} (hok : s.EngineOk) (h : engineEdge s = .ok t) : t.EngineOk := by
  intro ht
  rcases engineEdge_inv h with ⟨he, rfl⟩ | ⟨he, hr, rfl⟩ | ⟨he, hr, hc⟩
  · exact hok ht
  · obtain ⟨-, htotal⟩ := hok he
    refine ⟨?_, htotal⟩
    rw [roundStep_rnd, BitVec.toNat_add]
    exact Nat.le_trans (Nat.mod_le _ _) hr
  · rcases complete_inv hc with ⟨-, rfl⟩ | ⟨-, lb, -, rfl⟩ | ⟨-, rfl⟩
    · cases ht
    · exact ⟨Nat.zero_le 64, fun hp => by cases hp⟩
    · cases ht

/-- Settles O34: the write of DATA beside the engine's step, and the read of it before and right after. -/
theorem dataIsWrittenAndReadBack : Obligations.DataIsWrittenAndReadBack := by
  intro s b c w h
  obtain ⟨u, hu⟩ := engineEdge_ok h
  obtain ⟨hinputs, -⟩ := engineEdge_ports hu
  have hafter : (acked none (setData w u)).EngineOk := (engineOk_engineEdge h hu : u.EngineOk)
  obtain ⟨r, hr, ⟨-, hvalue, -, -⟩, -⟩ := readEdge_ok 1 hafter
  refine ⟨readEdge_ok 1 h, _, u, accessEdge_ok none (setData w) hu, acked_Acked none hinputs, hu, rfl, fun he => ?_,
    r, hr, hvalue⟩
  cases (engineEdge_idle he).symm.trans hu
  rfl

/-- Settles O26: every access here is the engine's step, which neither reads nor writes DATA. -/
theorem accessesDoNotDisturbTheEngine : Obligations.AccessesDoNotDisturbTheEngine := by
  intro s b w h
  obtain ⟨u, hu⟩ := engineEdge_ok h
  refine ⟨_, _, accessEdge_ok none (setData w) hu, idleEdge_ok hu, rfl, idleEdge_ok (engineEdge_setData w hu),
    fun addr => ?_⟩
  exact ⟨_, (exec_read addr s).trans (accessEdge_ok _ id hu), rfl⟩

/-! ### The digest output -/

/-- Bits taken from bits taken out of a vector are bits of the vector. -/
theorem extractLsb'_extractLsb'_of_add_le {w a n b m : Nat} (x : BitVec w) (h : b + m ≤ n) :
    (x.extractLsb' a n).extractLsb' b m = x.extractLsb' (a + b) m := by
  refine BitVec.eq_of_getLsbD_eq fun k hk => ?_
  have hin : b + k < n := by omega
  simp [hk, hin, Nat.add_assoc]

/-- `DIGEST(i)` stands in bits `255 - 32i` down to `224 - 32i` of the digest output [44_register_access.md R166]: taking
the words behind it off leaves it last. -/
theorem digestOut_word (s : State) {i : Nat} (h : i < 8) :
    s.digestOut.extractLsb' (224 - 32 * i) 32 = s.digestWord (BitVec.ofNat 3 i) := by
  rw [State.digestOut]
  obtain rfl | hpos := Nat.eq_zero_or_pos i
  · iterate 7 rw [BitVec.extractLsb'_append_eq_of_le (by decide)]
    exact BitVec.extractLsb'_eq_self
  · interval_cases i
    all_goals repeat rw [BitVec.extractLsb'_append_eq_of_le (by decide)]
    all_goals exact BitVec.extractLsb'_append_eq_right

/-- Byte lane `j` of a word, from the top, is byte `j` of the word serialized [00_scope.md R8]. -/
theorem be32bytes_getElem? (v : Word) {j : Nat} (h : j < 4) :
    (be32bytes v)[j]? = some (v.extractLsb' (24 - 8 * j) 8) := operandBytes_getElem? v 4 j h

/-- Byte `4i + j` of eight words serialized is byte `j` of word `i` [44_register_access.md R166]. -/
theorem Words8.bytes_getElem? (x : Words8) {i j : Nat} (hi : i < 8) (hj : j < 4) :
    x.bytes[4 * i + j]? = (be32bytes (x.get (BitVec.ofNat 3 i)))[j]? := by
  interval_cases i <;> interval_cases j <;> rfl

/-- Settles O41: the words of the digest output, and the byte lanes of each word. -/
theorem digestIsFormattedBigEndian : Obligations.DigestIsFormattedBigEndian := by
  intro s
  have hvalid : s.digestValidOut = true ↔ s.phase = .finalized := by
    rw [State.digestValidOut, State.digestValid, beq_iff_eq]
  refine ⟨fun i hi => digestOut_word s hi, hvalid, fun h => digestOut_eq_zero fun hp => ?_, fun hp i hi j hj => ⟨?_, ?_⟩⟩
  · rw [hvalid.2 hp] at h
    cases h
  · rw [Words8.bytes_getElem? s.h hi hj, be32bytes_getElem? _ hj]
  · have hword : s.digestOut.extractLsb' (224 - 32 * i) 32 = s.h.get (BitVec.ofNat 3 i) := by
      rw [digestOut_word s hi, digestWord_finalized hp]
    have hbit : 248 - 8 * (4 * i + j) = 224 - 32 * i + (24 - 8 * j) := by omega
    rw [← hword, extractLsb'_extractLsb'_of_add_le _ (by omega), hbit]

end Sys2Proof.Machine
end

section
/-! PROOFS. The handshake: the one refusal of a step, the ack and the value returned at an edge, and the write of CMD that is held while BUSY and then performed. -/

namespace Sys2Proof.Machine

/-! ### Refusals -/

theorem withdraws_iff {s : State} {p : PortIn} :
    s.withdraws p = true ↔ ∃ a, s.request = some a ∧ p.req ≠ some a := by
  cases h : s.request with
  | none => simp [State.withdraws, h]
  | some a => simp [State.withdraws, h]

theorem idleEdge_not_refused (s : State) (r : Refusal) : idleEdge s ≠ .refused r := by
  cases h : engineEdge s <;> simp [idleEdge, h]

/-- A step that is not withdrawn is never refused. -/
theorem step_not_refused {s : State} (hh : s.holdsRequest) (r : Refusal) : step s ≠ .refused r := by
  cases hr : s.nextIn.rst with
  | true => simp [step_reset hh hr]
  | false =>
    cases hq : s.nextIn.req with
    | some a => exact step_access hh hr hq ▸ exec_not_refused _ _ r
    | none => exact step_noAccess hh hr hq ▸ idleEdge_not_refused _ r

theorem step_withdrawn {s : State} (h : s.withdraws s.nextIn = true) : step s = .refused .requestWithdrawn := if_pos h

/-- Settles O7: a withdrawn request is refused, and no other step is. -/
theorem onlyWithdrawnRequestsAreRefused : Obligations.OnlyWithdrawnRequestsAreRefused := by
  intro s r
  rw [← withdraws_iff]
  cases hw : s.withdraws s.nextIn with
  | true => simp [step_withdrawn hw, eq_comm]
  | false => simp [step_not_refused hw]

/-! ### The value an access returns -/

/-- A row of an ignored write is the edge of an ignored write [30_encoding.md R81]. -/
theorem BusRow.exec_eq_ignoredEdge {acc : BitVec 7} {w : Word} {i : Instr} (h : BusRow acc w i)
    (hw : accWrites acc = true) (hp : Instr.isPassive i = true) (s : State) : exec i s = ignoredEdge s := by
  cases h with
  | wrIgnoredStatus x b | wrIgnoredLen x b | wrIgnoredDigest x b => rfl
  | wrCmd b | wrData b => cases hp
  | rdCmd b | rdData b | rdStatus b | rdReserved b | rdLenLo b | rdLenHi b | rdReservedHigh x b | rdDigest k b =>
    rw [accWrites_descriptorOf] at hw
    cases hw

/-- A read or an ignored write returns what the `rdata` port shows [44_register_access.md R161]. -/
theorem exec_passive_rdataOut {a : HostAccess} {s : State} (hq : s.nextIn.req = some a)
    (hp : Instr.isPassive (decodeAccess a) = true) :
    exec (decodeAccess a) (s.present s.nextIn) = accessEdge (s.rdataOut s.nextIn) id (s.present s.nextIn) := by
  cases a with
  | read addr =>
    rw [exec_read, State.rdataOut, hq]
    rfl
  | write addr w =>
    obtain ⟨i, hrow⟩ := exists_busRow (HostAccess.write addr w).descriptor w
    have hdec : decodeAccess (.write addr w) = i := hrow.decode
    rw [hdec] at hp ⊢
    rw [hrow.exec_eq_ignoredEdge (accWrites_write addr w) hp, State.rdataOut, hq]
    rfl

theorem rdataOut_write {s : State} {p : PortIn} {addr : BitVec 6} {w : Word} (h : p.req = some (.write addr w)) :
    s.rdataOut p = none := by
  rw [State.rdataOut, h]

/-! ### The `ack` port -/

theorem ackOut_reset {s : State} {p : PortIn} (h : p.rst = true) : s.ackOut p = false := by
  cases hq : p.req <;> simp [State.ackOut, hq, h]

theorem ackOut_none {s : State} {p : PortIn} (h : p.req = none) : s.ackOut p = false := by
  rw [State.ackOut, h]

/-- With no reset, `ack` is 1 but for a write of CMD while BUSY [44_register_access.md R160]. -/
theorem ackOut_access {s : State} {p : PortIn} {a : HostAccess} (hr : p.rst = false) (hq : p.req = some a) :
    s.ackOut p = !(accessIsCmdWrite a && s.busy) := by
  simp [State.ackOut, State.acceptable, hr, hq]

/-- An access that does not decode to a write of CMD is none [44_register_access.md R160]. -/
theorem accessIsCmdWrite_eq_false {a : HostAccess} (h : ∀ b w, decodeAccess a ≠ .wrCmd b w) :
    accessIsCmdWrite a = false := by
  rw [Bool.eq_false_iff]
  intro hc
  obtain ⟨b, w, hd⟩ := (decodeAccess_wrCmd_iff a).2 hc
  exact h b w hd

theorem accessIsCmdWrite_write {a : HostAccess} (h : accessIsCmdWrite a = true) : ∃ addr w, a = .write addr w := by
  cases a with
  | read addr => cases h
  | write addr w => exact ⟨addr, w, rfl⟩

/-! ### The record of the handshake -/

/-- What a state shows of the handshake after an edge, from the ports before it [44_register_access.md R160, R161]. -/
def State.Recorded (t s : State) : Prop :=
  t.ack = s.ackOut s.nextIn ∧ t.rdata = (if t.ack then s.rdataOut s.nextIn else none) ∧
    t.request = (if t.ack then none else s.nextIn.req) ∧ t.inputs = s.inputs.tail

/-- An edge with `ack` 0 records no value and leaves what is presented. -/
theorem recorded_notAcked {s u : State} (hack : s.ackOut s.nextIn = false)
    (hu : engineEdge (s.present s.nextIn) = .ok u) : (notAcked u).Recorded s := by
  obtain ⟨hinputs, hrequest⟩ := engineEdge_ports hu
  exact ⟨hack.symm, rfl, hrequest, hinputs⟩

/-- An edge with `ack` 1 records the value of the port and ends the access. -/
theorem recorded_acked {s u : State} {value : Option Word} (hack : s.ackOut s.nextIn = true)
    (hvalue : value = s.rdataOut s.nextIn) (hinputs : u.inputs = s.inputs.tail) : (acked value u).Recorded s :=
  ⟨hack.symm, hvalue, rfl, hinputs⟩

/-- Settles O8, by the cases of the step. -/
theorem handshakeFollowsItsFormula : Obligations.HandshakeFollowsItsFormula := by
  intro s t hs
  obtain ⟨hh, hcase⟩ := step_cases hs
  show t.Recorded s
  cases hcase with
  | reset rst next => exact next ▸ ⟨(ackOut_reset rst).symm, rfl, rfl, rfl⟩
  | quiet rst req u edge next => exact next ▸ recorded_notAcked (ackOut_none req) edge
  | held rst a req b w dec busy u edge next =>
    have hcmd := (decodeAccess_wrCmd_iff a).1 ⟨b, w, dec⟩
    exact next ▸ recorded_notAcked (by rw [ackOut_access rst req, hcmd, busy_compress busy]; rfl) edge
  | command rst a req b w dec idle u effect next =>
    obtain ⟨-, hinputs, -⟩ := commandEffect_frame effect
    obtain ⟨addr, w', rfl⟩ := accessIsCmdWrite_write ((decodeAccess_wrCmd_iff a).1 ⟨b, w, dec⟩)
    exact next ▸ recorded_acked (by rw [ackOut_access rst req, busy_idle idle, Bool.and_false]; rfl)
      (rdataOut_write req).symm hinputs
  | data rst a req b w dec u edge next =>
    have hcmd := accessIsCmdWrite_eq_false (a := a) (by simp [dec])
    obtain ⟨addr, rfl⟩ := decodeAccess_wrData dec
    exact next ▸ recorded_acked (u := setData w u) (by rw [ackOut_access rst req, hcmd]; rfl) (rdataOut_write req).symm
      (engineEdge_ports edge).1
  | passive rst a req dec u edge value next =>
    have hcmd := accessIsCmdWrite_eq_false (a := a) fun b w hd => by rw [hd] at dec; cases dec
    rw [step_access hh rst req, exec_passive_rdataOut req dec, accessEdge_ok _ id edge] at hs
    cases hs
    exact recorded_acked (by rw [ackOut_access rst req, hcmd]; rfl) rfl (engineEdge_ports edge).1

/-! ### A write of CMD while BUSY -/

/-- Settles O23: a command's edge while BUSY is the engine's step alone, with no ack. -/
theorem commandsAreHeldWhileBusy : Obligations.CommandsAreHeldWhileBusy := by
  intro s i he hok hi
  obtain ⟨c, hc⟩ : ∃ c, Instr.command? i = some c := by
    rcases hi with rfl | rfl | ⟨n, rfl⟩ | rfl | ⟨w, rfl⟩ | ⟨b, w, rfl⟩ <;> exact ⟨_, rfl⟩
  obtain ⟨u, hu⟩ := engineEdge_ok hok
  obtain ⟨hinputs, hrequest⟩ := engineEdge_ports hu
  refine ⟨notAcked u, ?_, ⟨⟨u, hu, rfl⟩, fun hidle => ?_⟩, rfl, rfl, hrequest, hinputs⟩
  · rw [exec_of_command? s hc, commandEdge_busy _ he, idleEdge_ok hu]
  · rw [he] at hidle
    cases hidle

theorem busyEdges_idle {s : State} (h : s.eng = .idle) : s.busyEdges = 0 := by
  rw [State.busyEdges, h]

theorem busyEdges_compress {s : State} (h : s.eng = .compress) :
    s.busyEdges = 65 - s.rnd.toNat + (if s.pad = .pFirst then 65 else 0) := by
  rw [State.busyEdges, h]

/-- There are at most 130 busy edges to come [70_reset_and_hazards.md R208]. -/
theorem busyEdges_le (s : State) : s.busyEdges ≤ 130 := by
  rcases engine_cases s with he | he
  · rw [busyEdges_idle he]
    omega
  · rw [busyEdges_compress he]
    split <;> omega

/-- Each step of a running engine uses up one of the busy edges to come [70_reset_and_hazards.md R206, R208]. -/
theorem engineEdge_busyEdges {s t : State} (he : s.eng = .compress) (h : engineEdge s = .ok t) :
    t.busyEdges + 1 = s.busyEdges := by
  rw [busyEdges_compress he]
  rcases engineEdge_inv h with ⟨hidle, -⟩ | ⟨-, hr, rfl⟩ | ⟨-, hr, hc⟩
  · rw [he] at hidle
    cases hidle
  · have hrnd : (s.rnd + 1).toNat = s.rnd.toNat + 1 := by
      rw [BitVec.toNat_add]
      exact Nat.mod_eq_of_lt (show s.rnd.toNat + 1 < 128 by omega)
    rw [busyEdges_compress (s := roundStep s) he, roundStep_rnd, roundStep_pad, hrnd]
    omega
  · rcases complete_inv hc with ⟨hp, rfl⟩ | ⟨hp, lb, -, rfl⟩ | ⟨hp, rfl⟩
    · rw [busyEdges_idle rfl, hr, if_neg (by simp [show s.pad = .pNone from hp])]
      rfl
    · rw [busyEdges_compress rfl, hr, if_pos hp]
      rfl
    · rw [busyEdges_idle rfl, hr, if_neg (by simp [show s.pad = .pFinal from hp])]
      rfl

/-- The access `a` is presented and not yet acked, and stays so, no input being to come (log 5). -/
structure State.Holds (s : State) (a : HostAccess) : Prop where
  inputs : s.inputs = []
  request : s.request = some a

/-- The step of a held write of CMD is the edge of its command at the state as it stands. -/
theorem step_held {s : State} {addr : BitVec 6} {w : Word} (h : s.Holds (.write addr w))
    (ha : addr.extractLsb' 2 4 = 0) : step s = commandEdge (commandEffect (decodeCmd w)) s := by
  obtain ⟨hi, hr⟩ := h
  have hn : s.nextIn = ⟨false, some (.write addr w)⟩ := by simp [State.nextIn, hi, hr]
  have hp : s.present s.nextIn = s := by
    rw [hn, State.present, hi, List.tail_nil, ← hr, ← hi]
  have hh : s.holdsRequest := by simp [State.holdsRequest, State.withdraws, hr, hn]
  obtain ⟨b, hd⟩ := decodeAccess_cmdWrite addr w ha
  rw [step_access (a := .write addr w) hh (by rw [hn]) (by rw [hn]), hp, hd, exec_wrCmd]

/-- A held write of CMD stays presented over the busy edges to come, and after them the engine is idle: by induction on
their number. -/
theorem steps_held {addr : BitVec 6} {w : Word} (ha : addr.extractLsb' 2 4 = 0) (n : Nat) {s : State} (hi : s.Inv)
    (h : s.Holds (.write addr w)) (hn : s.busyEdges = n) :
    (∃ t, steps n s = .next t ∧ t.eng = .idle ∧ t.Holds (.write addr w)) ∧
      ∀ j < n, ∃ u, steps j s = .next u ∧ u.busy = true ∧ u.Holds (.write addr w) := by
  induction n generalizing s with
  | zero =>
    refine ⟨⟨s, rfl, ?_, h⟩, fun j hj => absurd hj (Nat.not_lt_zero j)⟩
    rcases engine_cases s with he | he
    · exact he
    · have hrnd := hi.rndLe
      rw [busyEdges_compress he] at hn
      omega
  | succ n ih =>
    have he : s.eng = .compress := by
      rcases engine_cases s with he | he
      · rw [busyEdges_idle he] at hn
        cases hn
      · exact he
    obtain ⟨u, hu⟩ := engineEdge_ok (inv_engineOk hi)
    obtain ⟨hinputs, hrequest⟩ := engineEdge_ports hu
    have hcount : (notAcked u).busyEdges = n := Nat.succ.inj ((engineEdge_busyEdges he hu).trans hn)
    have hstep : ∀ k, steps (k + 1) s = steps k (notAcked u) := fun k => by
      rw [steps, step_held h ha, commandEdge_busy _ he, idleEdge_ok hu, andThen_next]
    obtain ⟨hend, hbefore⟩ := ih (inv_notAcked (inv_engineEdge hi hu))
      ⟨hinputs.trans h.inputs, hrequest.trans h.request⟩ hcount
    refine ⟨hstep n ▸ hend, fun j hj => ?_⟩
    cases j with
    | zero => exact ⟨s, rfl, busy_compress he, h⟩
    | succ j => exact hstep j ▸ hbefore j (Nat.lt_of_succ_lt_succ hj)

/-- Settles O32: the busy edges to come, then the edge that performs the command. -/
theorem heldCommandIsPerformed : Obligations.HeldCommandIsPerformed := by
  intro s addr w hi _ hinputs hrequest ha
  obtain ⟨⟨t, ht, he, hold⟩, hbefore⟩ := steps_held ha s.busyEdges hi ⟨hinputs, hrequest⟩ rfl
  obtain ⟨r, hr, -⟩ := commandEffect_ok (decodeCmd w) t (inv_steps hi ht)
  have hperformed : commandEdge (commandEffect (decodeCmd w)) t = .next (acked none r) := commandEdge_idle he hr
  refine ⟨s.busyEdges, t, _, busyEdges_le s, ht, he, hold.request, fun j hj => ?_,
    (step_held hold ha).trans hperformed, rfl, rfl, (exec_command _ t).trans hperformed⟩
  obtain ⟨u, hu, hbusy, huold⟩ := hbefore j hj
  exact ⟨u, hu, hbusy, huold.request⟩

end Sys2Proof.Machine
end

section
/-! PROOFS. Errors: the flag each one raises is the only change, the words that are illegal, and the order of the checks. -/

namespace Sys2Proof.Machine

/-! ### The STATUS bit of an error -/

/-- The index of the STATUS bit that shows each error's flag [10_state.md R32]. -/
def Err.statusBit : Err → Nat
  | .illegal => 4
  | .misuse => 5
  | .capacity => 6

/-- Raising an error sets its bit of STATUS and leaves every other, bit by bit [60_exceptions.md R180 to R182]. -/
theorem status_raise (e : Err) (s : State) : (raise e s).status = s.status ||| BitVec.twoPow 32 e.statusBit := by
  refine BitVec.eq_of_getLsbD_eq fun i hi => ?_
  rw [BitVec.getLsbD_or, status_getLsbD, status_getLsbD, BitVec.getLsbD_twoPow]
  cases e <;> grind [Err.statusBit, raise, State.busy, State.digestValid]

/-! ### The commands that raise an error -/

/-- A command whose effect is an error is performed while IDLE, and the flag is its whole effect [60_exceptions.md R184]. -/
theorem exec_of_raise {i : Instr} {c : Command} {e : Err} {s : State} (hi : Instr.command? i = some c)
    (he : s.eng = .idle) (h : commandEffect c s = .ok (raise e s)) : exec i s = .next (acked none (raise e s)) :=
  (exec_of_command? s hi).trans (commandEdge_idle he h)

/-- FINAL and UPDATE of any count are misuse in phase FINALIZED [60_exceptions.md R181]. -/
theorem commandEffect_misuse {c : Command} {s : State} (hc : c = .final ∨ ∃ n, c = .update n) (hp : s.phase = .finalized) :
    commandEffect c s = .ok (raise .misuse s) := by
  rcases hc with rfl | ⟨n, rfl⟩
  · exact finalEffect_misuse s hp
  · exact updateEffect_misuse n s hp

/-- Settles O22: a write of CMD has its word's command, whose effect is the flag of the first check that applies. -/
theorem errorsAreReportedInPriority : Obligations.ErrorsAreReportedInPriority := by
  refine fun s b w he => ⟨fun hd => ?_, fun hd hp => ?_, fun n hd hp hm => ?_⟩
  · exact ⟨_, exec_wrCmd_illegal b hd he, rfl⟩
  · exact ⟨_, exec_of_raise (i := .wrCmd b w) rfl he (commandEffect_misuse hd hp), rfl⟩
  · exact ⟨_, exec_of_raise (i := .wrCmd b w) (congrArg some hd) he (updateEffect_capacity n s hp hm), rfl⟩

/-- Settles O19: both commands are misuse, and in phase FINALIZED the digest registers show H, which the flag leaves. -/
theorem misuseAfterFinalizeOnlySetsItsFlag : Obligations.MisuseAfterFinalizeOnlySetsItsFlag := by
  intro s i he hp hi
  obtain ⟨c, hic, hc⟩ : ∃ c, Instr.command? i = some c ∧ (c = .final ∨ ∃ n, c = .update n) := by
    rcases hi with ⟨n, rfl⟩ | rfl
    · exact ⟨_, rfl, .inr ⟨n, rfl⟩⟩
    · exact ⟨_, rfl, .inl rfl⟩
  exact ⟨_, exec_of_raise hic he (commandEffect_misuse hc hp), acked_Acked none rfl, rfl, status_raise .misuse s,
    fun j => digestWord_finalized (s := raise .misuse s) hp j, fun _ => rfl⟩

/-- Settles O20: FRESH and ACCUMULATING pass the check on the phase, and the check on the count fails. -/
theorem capacityErrorOnlySetsItsFlag : Obligations.CapacityErrorOnlySetsItsFlag := by
  intro s n he hp hm
  have hp : s.phase ≠ .finalized := by rcases hp with hp | hp <;> simp [hp]
  exact ⟨_, exec_of_raise (i := .update n) rfl he (updateEffect_capacity n s hp hm), acked_Acked none rfl, rfl,
    status_raise .capacity s, fun _ => rfl⟩

/-! ### The illegal words -/

/-- A word is illegal by its reserved bits, its operation, or its byte count, which only UPDATE has [60_exceptions.md R180]. -/
theorem decodeCmd_illegal_iff (w : Word) :
    decodeCmd w = .illegal w ↔ cmdRsv w ≠ 0 ∨ 4 ≤ (cmdOp w).toNat ∨
      ((cmdOp w).toNat = 2 ∧ 5 ≤ (cmdNBytes w).toNat) ∨ ((cmdOp w).toNat ≠ 2 ∧ (cmdNBytes w).toNat ≠ 0) := by
  unfold decodeCmd
  split
  next hrsv => exact iff_of_true rfl (.inl hrsv)
  next hrsv =>
    split
    next hnop => exact iff_of_false nofun (by bv_omega)
    split
    next hinit => exact iff_of_false nofun (by bv_omega)
    split
    next hupdate => exact iff_of_false nofun (by bv_omega)
    split
    next hfinal => exact iff_of_false nofun (by bv_omega)
    · exact iff_of_true rfl (by bv_omega)

/-- Settles O21: the two branches of the decoder that answer `illegal`, and the flag as the whole effect. -/
theorem illegalWordOnlySetsItsFlag : Obligations.IllegalWordOnlySetsItsFlag :=
  fun w => ⟨decodeCmd_illegal_iff w, fun s he =>
    ⟨_, exec_of_raise (i := .illegal w) (e := .illegal) rfl he rfl, acked_Acked none rfl, rfl, status_raise .illegal s,
      fun _ => rfl⟩⟩

end Sys2Proof.Machine
end

section
/-! PROOFS. INIT and reset, the busy edges each command starts, and that every busy edge uses one up. -/

namespace Sys2Proof.Machine

/-! ### INIT and reset -/

/-- Settles O3: INIT writes what reset writes, but for `eng`, `rnd` and the cells left out, and an idle state of a run holds
those two at their reset values. -/
theorem initGivesTheResetState : Obligations.InitGivesTheResetState := by
  intro s hi he
  refine ⟨_, commandEdge_idle (c := initEffect) he rfl, ?_⟩
  simp [State.block, State.reset, acked, he, hi.idleRnd he]

/-! ### One busy edge at a time -/

/-- BUSY is 1 exactly while busy edges are to come [70_reset_and_hazards.md R208]. -/
theorem busyEdges_pos_iff {s : State} (hr : s.rnd.toNat ≤ 64) : 0 < s.busyEdges ↔ s.busy = true := by
  rcases engine_cases s with he | he
  · simp [busyEdges_idle he, busy_idle he]
  · rw [busyEdges_compress he]
    exact iff_of_true (by omega) (busy_compress he)

/-- Settles O30: while BUSY no command is performed, so the edge is the engine's step, beside at most a write of DATA. -/
theorem busyEdgesCountDown : Obligations.BusyEdgesCountDown := by
  refine fun s hi => ⟨busyEdges_le s, busyEdges_pos_iff hi.rndLe, fun t hb hrst hs => ?_⟩
  have he : s.eng = .compress := busy_iff.1 hb
  cases step_effect hs with
  | reset rst next =>
    rw [hrst] at rst
    cases rst
  | command rst c performed u effect next => exact absurd ((performed c).2 rfl) (not_performs_busy he c)
  | engine rst unperformed u edge next =>
    have hu : t.busyEdges = u.busyEdges := (congrArg State.busyEdges next :)
    rw [hu]
    exact engineEdge_busyEdges (s := s.present s.nextIn) he edge

/-! ### The busy edges a command starts -/

/-- A load starts one block's busy edges, and those of PadB if it is to follow [70_reset_and_hazards.md R208]. -/
theorem busyEdges_load (b : List Byte) (p : PadState) (hcur : Words8) (s : State) :
    (load b p hcur s).busyEdges = 65 + (if p = .pFirst then 65 else 0) := rfl

theorem busyEdges_raise {s : State} (e : Err) (he : s.eng = .idle) : (raise e s).busyEdges = 0 :=
  busyEdges_idle ((raise_eng e s).trans he)

/-- UPDATE starts a block's busy edges exactly if it is accepted and completes a block [43_streaming_driver.md R140]. -/
theorem updateEffect_busyEdges {n : Fin 5} {s t : State} (he : s.eng = .idle) (h : updateEffect n s = .ok t) :
    t.busyEdges = (if s.phase = .finalized ∨ maxBytes < s.totalLen.toNat + n.val then 0
      else if 64 ≤ s.bufLen.toNat + n.val then 65 else 0) := by
  rcases updateEffect_inv h with ⟨hp, rfl⟩ | ⟨-, hm, rfl⟩ | ⟨hp, hm, ha⟩
  · rw [if_pos (.inl hp), busyEdges_raise _ he]
  · rw [if_pos (.inr hm), busyEdges_raise _ he]
  · rw [if_neg (not_or.2 ⟨hp, Nat.not_lt.2 hm⟩)]
    rcases append_inv (operandBytes_le _ _) ha with ⟨hshort, rfl⟩ | ⟨hfull, front, -, rfl⟩
    · rw [operandBytes_length] at hshort
      rw [if_neg (Nat.not_le.2 hshort)]
      exact busyEdges_idle he
    · rw [operandBytes_length] at hfull
      rw [if_pos hfull, busyEdges_load]
      rfl

/-- FINAL starts the busy edges of one padding block, or of two from 56 buffered bytes on [43_streaming_driver.md R143]. -/
theorem finalEffect_busyEdges {s t : State} (he : s.eng = .idle) (h : finalEffect s = .ok t) :
    t.busyEdges = (if s.phase = .finalized then 0 else if s.bufLen.toNat ≤ 55 then 65 else 130) := by
  rcases finalEffect_inv h with ⟨hp, rfl⟩ | ⟨hp, hpad⟩
  · rw [if_pos hp, busyEdges_raise _ he]
  · obtain ⟨front, lb, -, -, rfl⟩ := startPadding_inv hpad
    rw [if_neg hp, busyEdges_load]
    by_cases hb : s.bufLen.toNat ≤ 55 <;> simp [hb]

/-- From an idle state of a run a command is performed, and its edge starts the busy edges its effect does. -/
theorem exec_busyEdges {i : Instr} {c : Command} {s : State} {k : Nat} (hi : s.Inv) (he : s.eng = .idle)
    (hc : Instr.command? i = some c) (hk : ∀ u, commandEffect c s = .ok u → u.busyEdges = k) :
    ∃ t, exec i s = .next t ∧ t.busyEdges = k := by
  obtain ⟨u, hu, -⟩ := commandEffect_ok c s hi
  exact ⟨acked none u, (exec_of_command? s hc).trans (commandEdge_idle he hu), hk u hu⟩

/-- Settles O31: NOP, INIT and an illegal word leave the engine idle, UPDATE and FINAL start it where they load a block. -/
theorem commandsStartTheirBusyEdges : Obligations.CommandsStartTheirBusyEdges := by
  refine fun s hi he => ⟨exec_busyEdges hi he (c := .nop) rfl fun u hu => ?_,
    exec_busyEdges hi he (c := .init) rfl fun u hu => ?_,
    fun w => exec_busyEdges hi he (c := .illegal w) rfl fun u hu => ?_,
    fun n => exec_busyEdges hi he (c := .update n) rfl fun u hu => updateEffect_busyEdges he hu,
    exec_busyEdges hi he (c := .final) rfl fun u hu => finalEffect_busyEdges he hu⟩
  · cases hu
    exact busyEdges_idle he
  · cases hu
    exact busyEdges_idle he
  · cases hu
    exact busyEdges_raise .illegal he

end Sys2Proof.Machine
end
